-- ==== Sys2Proof/Config.lean ====
section
/-! DEFINITION. The parameters of the engine (spec 00_scope.md R7; none is left open) and the one free value. -/

namespace Sys2Proof

/-- `NSYM`: entries of the code table (R7). -/
abbrev Config.nsym : Nat := 256

/-- `MAXLEN`: greatest code length in bits (R7, D7). -/
abbrev Config.maxLen : Nat := 255

/-- `PAD_MAX`: greatest legal padding count (R7). -/
abbrev Config.padMax : Nat := 7

/-- `BYTE_W`: bits of one payload byte (R7). -/
abbrev Config.byteW : Nat := 8

/-- FREE VALUE (93_implementation_defined.md U16; DESIGN CHOICE,
safe: log entry 5): how many of a command's symbols got out before a
hardware reset that fell inside it, for the `k`-th such reset. It has no body, so nothing can be proved of its value. -/
opaque Config.resetCut : Nat → Nat

end Sys2Proof
end

