-- ==== Sys2Proof/Word.lean ====
section
/-! DEFINITION. The plain types of the engine: command and status words, bytes, symbols, counters, bit strings
(spec 00_scope.md R8, R9). -/

namespace Sys2Proof

/-- A command word or a status word (R9). -/
abbrev Word := BitVec 32

/-- A payload byte; bit 7 is its most significant bit (R9). -/
abbrev Byte := BitVec 8

/-- A symbol, "one byte value (0–255)" (R12). -/
abbrev Symbol := BitVec 8

/-- The 64-bit counters `nbits` and `nsyms` (R30, R31). -/
abbrev Count := BitVec 64

/-- A bit string, in the order its bits travel in the stream: index 0 is the first bit (R8). -/
abbrev Bits := List Bool

end Sys2Proof
end

