-- ==== Sys2Proof/Syntax.lean ====
section
/-! DEFINITION. The commands of the engine (spec 30_encoding.md R76 to R78) and the assembler's lines over them
(R86, R87). -/

namespace Sys2Proof

/-- The eight host commands, one constructor per row of the opcode map (R78). Every operand is an unsigned field of the
word as it stands (R77), so its type is the field's width. -/
inductive Instr where
  /-- NOP, format Z (R101). -/
  | nop
  /-- CLR, format Z (R102). -/
  | clr
  /-- CBIT `b`, format T: shift one code bit into the staging register (R111). -/
  | cbit (b : Bool)
  /-- LDC `sym`, format B: the staged bits become the code of `sym` (R112). -/
  | ldc (sym : Symbol)
  /-- LDL `sym, len`, format P: give `sym` the next canonical code of `len` bits (R113). -/
  | ldl (sym : Symbol) (len : BitVec 8)
  /-- SEAL, format Z: close the table and start decoding (R103). -/
  | sealTable
  /-- PUSH `byte`, format B: take the next payload byte (R141). -/
  | push (byte : Byte)
  /-- FIN `pad`, format B: end of the payload, with the padding count (R143). -/
  | fin (pad : BitVec 8)
  deriving DecidableEq, Repr

/-- Why a word is no command (R80): its opcode byte is none of the eight, or a must-be-zero bit is one. Either way
performing it raises ILLCMD. -/
inductive Reject where
  | unassignedOpcode
  | mustBeZeroBit
  deriving DecidableEq, Repr

/-- One line of assembler (R86) or one pseudo-command (R87), its operands as written: unbounded numbers, so that an
operand that does not fit its field can be written down and refused. -/
inductive AsmLine where
  | nop
  | clr
  | cbit (b : Nat)
  | ldc (sym : Nat)
  | ldl (sym len : Nat)
  | sealTable
  | push (byte : Nat)
  | fin (pad : Nat)
  /-- `LDCODE sym, "b0 … bn-1"` (R87). -/
  | ldcode (sym : Nat) (code : Bits)
  /-- `DATA x0, …, xm-1` (R87). -/
  | data (bytes : List Nat)
  /-- `END pad` (R87). -/
  | endRun (pad : Nat)
  deriving DecidableEq, Repr

end Sys2Proof
end

