-- ==== Sys2Proof/WellFormed.lean ====
section
/-! DEFINITION. When an assembler line is well formed (spec 30_encoding.md R86, R87), and when a command is: every
operand fits its field (R76, R77). -/

namespace Sys2Proof

/-- The operands of a command, each with the width of its field (R76). -/
def Instr.operands : Instr → List (Nat × Nat)
  | .nop => []
  | .clr => []
  | .cbit b => [(b.toNat, 1)]
  | .ldc sym => [(sym.toNat, 8)]
  | .ldl sym len => [(sym.toNat, 8), (len.toNat, 8)]
  | .sealTable => []
  | .push byte => [(byte.toNat, 8)]
  | .fin pad => [(pad.toNat, 8)]

/-- Every operand fits its field. The types of `Instr` make it so for every command (`Instr.wellFormed_all`): "Every
value of `a`, `sym` and `len` decodes" (R77). -/
def Instr.wellFormed (i : Instr) : Bool :=
  i.operands.all fun o => decide (o.1 < 2 ^ o.2)

/-- What an assembler accepts: a bit operand 0 or 1, a byte, length or padding count at most 255 (R86); a code of 1 to
255 bits for LDCODE (R87). `LDL sym, 0` and `FIN 8` are accepted: they decode and then fault. -/
def AsmLine.wellFormed : AsmLine → Bool
  | .nop => true
  | .clr => true
  | .cbit b => decide (b ≤ 1)
  | .ldc sym => decide (sym ≤ 255)
  | .ldl sym len => decide (sym ≤ 255) && decide (len ≤ 255)
  | .sealTable => true
  | .push byte => decide (byte ≤ 255)
  | .fin pad => decide (pad ≤ 255)
  | .ldcode sym code => decide (sym ≤ 255) && decide (1 ≤ code.length) && decide (code.length ≤ Config.maxLen)
  | .data bytes => bytes.all fun x => decide (x ≤ 255)
  | .endRun pad => decide (pad ≤ 255)

end Sys2Proof
end

