-- ==== Sys2Proof/Decode.lean ====
section
/-! DEFINITION. The opcode map, the decoder (total on 32-bit words) and, after it, the encoder and the assembler
(spec 30_encoding.md R75 to R80, R86, R87). -/

namespace Sys2Proof

/-- A row of the opcode map (R78): a word `w` is a command of the row when `w AND mask = pattern`. -/
structure OpRow where
  mnemonic : String
  mask : Word
  pattern : Word
  deriving DecidableEq, Repr

/-- `w AND mask = match` (R78). -/
def OpRow.admits (r : OpRow) (w : Word) : Bool := w &&& r.mask == r.pattern

/-- The opcode map (R78). -/
def opcodeMap : List OpRow :=
  [⟨"NOP", 0xFFFFFFFF, 0x00000000⟩, ⟨"CLR", 0xFFFFFFFF, 0x01000000⟩,
   ⟨"CBIT", 0xFFFFFFFE, 0x10000000⟩, ⟨"LDC", 0xFFFFFF00, 0x11000000⟩,
   ⟨"LDL", 0xFFFF0000, 0x12000000⟩, ⟨"SEAL", 0xFFFFFFFF, 0x13000000⟩,
   ⟨"PUSH", 0xFFFFFF00, 0x20000000⟩, ⟨"FIN", 0xFFFFFF00, 0x21000000⟩]

/-- The mnemonic of a command, as the opcode map spells it. -/
def Instr.mnemonic : Instr → String
  | .nop => "NOP"
  | .clr => "CLR"
  | .cbit _ => "CBIT"
  | .ldc _ => "LDC"
  | .ldl _ _ => "LDL"
  | .sealTable => "SEAL"
  | .push _ => "PUSH"
  | .fin _ => "FIN"

/-- The opcode byte `w[31:24]` (R75). -/
def opcodeOf (w : Word) : BitVec 8 := w.extractLsb' 24 8

/-- The operand `b = w[0]` of format T (R77). -/
def fieldB (w : Word) : Bool := w.getLsbD 0

/-- The operand `a = w[7:0]` of format B, also the operand `len` of format P (R77). -/
def fieldA (w : Word) : BitVec 8 := w.extractLsb' 0 8

/-- The operand `sym = w[15:8]` of format P (R77). -/
def fieldSym (w : Word) : Symbol := w.extractLsb' 8 8

/-- Whether the opcode byte is one of the eight (R78, R80). -/
def opcodeAssigned (w : Word) : Bool :=
  opcodeMap.any fun r => opcodeOf r.pattern == opcodeOf w

/-- `Decode(w)` (R79): total on 32-bit words, a function of the word alone; ILLEGAL is a rejection by name. -/
def decode (w : Word) : Except Reject Instr :=
  if w = 0x00000000 then .ok .nop
  else if w = 0x01000000 then .ok .clr
  else if w &&& 0xFFFFFFFE = 0x10000000 then .ok (.cbit (fieldB w))
  else if w &&& 0xFFFFFF00 = 0x11000000 then .ok (.ldc (fieldA w))
  else if w &&& 0xFFFF0000 = 0x12000000 then .ok (.ldl (fieldSym w) (fieldA w))
  else if w = 0x13000000 then .ok .sealTable
  else if w &&& 0xFFFFFF00 = 0x20000000 then .ok (.push (fieldA w))
  else if w &&& 0xFFFFFF00 = 0x21000000 then .ok (.fin (fieldA w))
  else if opcodeAssigned w then .error .mustBeZeroBit
  else .error .unassignedOpcode

/-- The 32-bit word with the field `v` at bits `lo` and up, zeros elsewhere (R9, R76). -/
def place {n : Nat} (v : BitVec n) (lo : Nat) : Word := v.setWidth 32 <<< lo

/-- The word of a command (R76, R86): opcode byte at bits 31:24, operand fields, zeros elsewhere. -/
def encode : Instr → Word
  | .nop => place 0x00#8 24
  | .clr => place 0x01#8 24
  | .cbit b => place 0x10#8 24 ||| place (BitVec.ofBool b) 0
  | .ldc sym => place 0x11#8 24 ||| place sym 0
  | .ldl sym len => place 0x12#8 24 ||| place sym 8 ||| place len 0
  | .sealTable => place 0x13#8 24
  | .push byte => place 0x20#8 24 ||| place byte 0
  | .fin pad => place 0x21#8 24 ||| place pad 0

/-- The commands an assembler line stands for, its operands cut to their fields (R86); `LDCODE`, `DATA` and `END` expand
as R87 says. -/
def AsmLine.expand : AsmLine → List Instr
  | .nop => [.nop]
  | .clr => [.clr]
  | .cbit b => [.cbit (b == 1)]
  | .ldc sym => [.ldc (BitVec.ofNat 8 sym)]
  | .ldl sym len => [.ldl (BitVec.ofNat 8 sym) (BitVec.ofNat 8 len)]
  | .sealTable => [.sealTable]
  | .push byte => [.push (BitVec.ofNat 8 byte)]
  | .fin pad => [.fin (BitVec.ofNat 8 pad)]
  | .ldcode sym code => code.map Instr.cbit ++ [.ldc (BitVec.ofNat 8 sym)]
  | .data bytes => bytes.map fun x => .push (BitVec.ofNat 8 x)
  | .endRun pad => [.fin (BitVec.ofNat 8 pad)]

/-- The words of an assembler line; an operand that does not fit its field is refused (R86). -/
def assemble (l : AsmLine) : Option (List Word) :=
  if l.wellFormed then some (l.expand.map encode) else none

/-- What the decoder reads from an instruction whose `nbits` low bits are those of `w`, the bits above them zero. A
command is one 32-bit value on the command channel (R75); how a platform moves it as bytes is the platform's (R68;
DESIGN CHOICE, safe: log entry 14). -/
def decodeTableWord (nbits w : Nat) : Option Instr :=
  if nbits ≤ 32 then (decode (BitVec.ofNat 32 (w % 2 ^ nbits))).toOption else none

end Sys2Proof
end

