-- ==== Sys2Proof/Machine/State.lean ====
section
/-! DEFINITION. The state of the engine (spec 10_state.md R20), what the host does next, the record of the symbol
channel, and the state after reset (R41). -/

namespace Sys2Proof.Machine

/-- Where the run stands (R22). -/
inductive Phase where
  | load
  | run
  | done
  | fault
  deriving DecidableEq, Repr

/-- Why the engine is in FAULT (R23; the table of 60_exceptions.md R181), in the order of the codes 0 to 11. -/
inductive Cause where
  | none
  | illCmd
  | seq
  | tblZeroLen
  | tblLen
  | tblDup
  | tblPrefix
  | tblOrder
  | tblOver
  | pad
  | decNoCode
  | decTrunc
  deriving DecidableEq, Repr

/-- Which kind of table entry this run takes (R24). -/
inductive TableMode where
  | none
  | plain
  | canon
  deriving DecidableEq, Repr

/-- The code table `CT[0..255]` (R25) as a sparse list of (symbol, code): a symbol that is not listed has no code
(`none`). One canonical form: symbols strictly rising (`CodeTable.wf`; DESIGN CHOICE, safe: log entry 7). -/
abbrev CodeTable := List (Symbol × Bits)

/-- The canonical form of the table's list. -/
abbrev CodeTable.wf (t : CodeTable) : Prop :=
  t.Pairwise fun a b => a.1.toNat < b.1.toNat

/-- What the host does next (00_scope.md R5; 70_reset_and_hazards.md R210; DESIGN CHOICE, safe:
log entries 1, 4). -/
inductive HostInput where
  /-- A 32-bit word on the command channel. -/
  | command (w : Word)
  /-- The hardware reset, between two commands. -/
  | reset
  /-- The hardware reset while the word `w` is being performed: the command is abandoned (R210). -/
  | resetDuring (w : Word)
  deriving DecidableEq, Repr

/-- The state: the fields of R20 (`nent` is derived, R32), then the sink's record `out` (R33), then the model's own
`inputs` and `resets`. -/
structure State where
  /-- R22. -/
  phase : Phase
  /-- R23. -/
  cause : Cause
  /-- R24. -/
  mode : TableMode
  /-- `CT`, R25. -/
  ct : CodeTable
  /-- The staging register, R26. -/
  stg : Bits
  /-- The symbol of the latest canonical entry, R27. -/
  last : Option Symbol
  /-- The holding register, R28. -/
  hold : Option Byte
  /-- The walker's position, R29. -/
  cur : Bits
  /-- Bits consumed, R30. -/
  nbits : Count
  /-- Symbols emitted, R31. -/
  nsyms : Count
  /-- The symbol channel's history, oldest first; the sink's, not the engine's (R33; DESIGN CHOICE, unsafe: log
  entry 6). -/
  out : List Symbol
  /-- The model's own: what the host does next, oldest first (DESIGN CHOICE, safe: log entry 1). -/
  inputs : List HostInput
  /-- The model's own: how many resets fell inside a command, the argument of `Config.resetCut` (DESIGN
  CHOICE, safe: log entry 5). -/
  resets : Nat
  deriving DecidableEq, Repr

/-- Reasons the MODEL stops. A fault of the spec (60_exceptions.md R180) is not one of them: it is a next state in phase
FAULT. -/
inductive Fault where
  /-- Raised by LDL where `last` names a symbol that has no code. No run reaches such a state (R34 item 4), and the spec
  gives LDL no effect there: `CT[last]` is not a bit string. DESIGN CHOICE, safe (log entry 9). -/
  | lastWithoutEntry
  deriving DecidableEq, Repr

/-- Reasons the model has no meaning for a command. -/
inductive Refusal where
  /-- Answered only by an arm of `exec` whose instruction has no meaning yet; no arm is so now. Safe. -/
  | notModelled (mnemonic : String)
  deriving DecidableEq, Repr

/-- The state after the hardware reset (R41), with an empty sink record and no input from the host yet (log entries 1,
5, 6). -/
def State.reset : State where
  phase := .load
  cause := .none
  mode := .none
  ct := []
  stg := []
  last := none
  hold := none
  cur := []
  nbits := 0
  nsyms := 0
  out := []
  inputs := []
  resets := 0

end Sys2Proof.Machine
end

