-- ==== Sys2Proof/Machine/Operands.lean ====
section
/-! DEFINITION. Bit strings as numbers and back, the bits of a payload byte in stream order, and the canonical step
(spec 00_scope.md R8; 20_memory.md R52, R53, R62; 41_table_load.md R114). -/

namespace Sys2Proof.Machine

/-- `val(p)`: the unsigned value of a bit string, the first bit the most significant (R8, R62). -/
def val (p : Bits) : Nat := p.foldl (fun v b => 2 * v + b.toNat) 0

/-- `bits_n(v)`: the bit string of length `n` with value `v`, for `v < 2^n` (R8). -/
def bitsOf : Nat → Nat → Bits
  | 0, _ => []
  | n + 1, v => v.testBit n :: bitsOf n v

/-- `zeros(n)` (R8). -/
def zeros (n : Nat) : Bits := List.replicate n false

/-- `bit(h, i) = h[7−i]`: the `i`-th bit of a byte in stream order (R52). -/
def streamBit (h : Byte) (i : Nat) : Bool := h.getLsbD (7 - i)

/-- The eight bits of a byte in stream order (R52). -/
def streamBits (h : Byte) : Bits := (List.range Config.byteW).map (streamBit h)

/-- `Next(prev, len) = bits_pl(val(prev) + 1) ++ zeros(len − pl)`: increment at the previous width, then extend (R114). -/
def nextCode (prev : Bits) (len : Nat) : Bits :=
  bitsOf prev.length (val prev + 1) ++ zeros (len - prev.length)

/-- The increment carries out of the previous code's width: `val(prev) + 1 = 2^pl` (R113, R115). -/
def incrementOverflows (prev : Bits) : Bool := val prev + 1 == 2 ^ prev.length

end Sys2Proof.Machine
end

