-- ==== Sys2Proof/Machine/Ops.lean ====
section
/-! DEFINITION. The named operations: reads and writes of the code table and its trie view (spec 20_memory.md R58 to R61),
fault entry (60_exceptions.md R183), the return from a fault (40_control.md R102), emission (43_tree_walk.md R162) and the
dispatch checks shared by the commands (40_control.md R100). -/

namespace Sys2Proof.Machine

/-! ### The code table -/

/-- `CT[s]`: `none` or the code of the symbol `s` (R10, R25). -/
def ctRead (t : CodeTable) (s : Symbol) : Option Bits :=
  match t with
  | [] => none
  | e :: rest => if e.1 = s then some e.2 else ctRead rest s

/-- `CT[s] <- c` (R10); keeps the list's symbols strictly rising. -/
def ctWrite (t : CodeTable) (s : Symbol) (c : Bits) : CodeTable :=
  match t with
  | [] => [(s, c)]
  | e :: rest =>
    if s.toNat < e.1.toNat then (s, c) :: e :: rest
    else if e.1 = s then (s, c) :: rest
    else e :: ctWrite rest s c

/-- The symbols the table lists. -/
def ctSymbols (t : CodeTable) : List Symbol := t.map Prod.fst

/-- `Codes = { CT[s] : CT[s] ≠ none }` (R58), as a list. -/
def codes (t : CodeTable) : List Bits := (ctSymbols t).filterMap (ctRead t)

/-- `nent = |{ s : CT[s] ≠ none }|` (R32). -/
def nent (t : CodeTable) : Nat := (ctSymbols t).dedup.length

/-- `IsNode(p)`: `p` is the root or a prefix of a code (R59). -/
def isNode (t : CodeTable) (p : Bits) : Bool :=
  p.isEmpty || (codes t).any fun c => p.isPrefixOf c

/-- `SymOf(p)`: the symbol whose code is `p`, if there is one (R60). Where two symbols shared a code, which no run reaches
(R34 item 1), it would be the lowest (DESIGN CHOICE: log entry 8). -/
def symOf (t : CodeTable) (p : Bits) : Option Symbol :=
  (ctSymbols t).find? fun s => ctRead t s == some p

/-- `IsLeaf(p)`: `p ∈ Codes` (R60). -/
def isLeaf (t : CodeTable) (p : Bits) : Bool := (codes t).contains p

/-- `Conflicts(n)`: some code is a prefix of `n`, or `n` of it (R61). -/
def conflicts (t : CodeTable) (n : Bits) : Bool :=
  (codes t).any fun c => c.isPrefixOf n || n.isPrefixOf c

/-! ### Faults and the way out -/

/-- `raise Fault(c)`: `phase <- FAULT`, `cause <- c`, no other field (R183). -/
def raise (c : Cause) (s : State) : State := { s with phase := .fault, cause := c }

/-- What CLR and the hardware reset do (R102, R211): every engine field to its reset value (R41). The sink's record is
kept (R33), and so are the model's own fields. -/
def clear (s : State) : State :=
  { s with
    phase := .load, cause := .none, mode := .none, ct := [], stg := [], last := none
    hold := none, cur := [], nbits := 0, nsyms := 0 }

/-- Performing a word that does not decode (R80, R100): ILLCMD, or dropped in phase FAULT. -/
def illegalWord (s : State) : State :=
  if s.phase = .fault then s else raise .illCmd s

/-! ### Control flow inside a command -/

/-- Where a block of pseudocode ended (R10): it fell through, or `raise` left it. -/
inductive Flow where
  | going (s : State)
  | raised (s : State)
  deriving DecidableEq, Repr

/-- The state either way. -/
def Flow.state : Flow → State
  | .going s => s
  | .raised s => s

/-! ### Writes the commands share -/

/-- `Emit(s)` with its count: the symbol goes to the sink, `nsyms` counts it modulo 2^64 (R160, R162). -/
def emit (sym : Symbol) (s : State) : State :=
  { s with out := s.out ++ [sym], nsyms := s.nsyms + 1 }

/-- One payload bit consumed: `nbits` counts it modulo 2^64 (R30, R160). -/
def countBit (s : State) : State := { s with nbits := s.nbits + 1 }

/-- The committed entry of LDC (R112). -/
def loadPlain (sym : Symbol) (s : State) : State :=
  { s with ct := ctWrite s.ct sym s.stg, stg := [], mode := .plain }

/-- The committed entry of LDL (R113). -/
def loadCanon (sym : Symbol) (code : Bits) (s : State) : State :=
  { s with ct := ctWrite s.ct sym code, last := some sym, mode := .canon }

/-! ### Dispatch -/

/-- The table `Allowed` of R100. NOP and CLR "are allowed everywhere". -/
def allowed (i : Instr) (p : Phase) (m : TableMode) : Bool :=
  match i with
  | .nop => true
  | .clr => true
  | .cbit _ => p == .load && m != .canon
  | .ldc _ => p == .load && m != .canon
  | .ldl _ _ => p == .load && m != .plain
  | .sealTable => p == .load
  | .push _ => p == .run
  | .fin _ => p == .run

/-- A step of the engine answers a next state: what a command's pseudocode ends in. -/
abbrev Outcome := Host.Outcome State Fault Refusal

/-- The tests that stand before a command's own rule (R100, R182): in phase FAULT it is dropped, where it is not allowed it
raises SEQ, else its body is performed. -/
def guarded (i : Instr) (body : State → Outcome) (s : State) : Outcome :=
  if s.phase = .fault then .next s
  else if allowed i s.phase s.mode then body s
  else .next (raise .seq s)

end Sys2Proof.Machine
end

