-- ==== Sys2Proof/Machine/Control.lean ====
section
/-! DEFINITION. The control commands NOP, CLR and SEAL (spec 40_control.md R101 to R103). -/

namespace Sys2Proof.Machine

/-- NOP (R101): no field changes, in any phase. -/
def execNop (s : State) : Outcome := .next s

/-- CLR (R102): the reset state, in every phase; the return from a fault (R185). -/
def execClr (s : State) : Outcome := .next (clear s)

/-- The pseudocode of SEAL (R103). -/
def sealBody (s : State) : Outcome :=
  if s.stg ≠ [] then .next (raise .seq s)
  else .next { s with phase := .run }

/-- SEAL (R103). -/
def execSeal (s : State) : Outcome := guarded .sealTable sealBody s

end Sys2Proof.Machine
end

