-- ==== Sys2Proof/Machine/Walker.lean ====
section
/-! DEFINITION. The tree walker: one bit step (spec 43_tree_walk.md R160) and the feeding of a byte's bits to it
(42_bit_unpacker.md R142). -/

namespace Sys2Proof.Machine

/-- `BitStep(b)` (R160). -/
def bitStep (b : Bool) (s : State) : Flow :=
  let p := s.cur ++ [b]
  if isNode s.ct p then
    match symOf s.ct p with
    | some sym => .going { emit sym (countBit s) with cur := [] }
    | none => .going { countBit s with cur := p }
  else .raised (raise .decNoCode s)

/-- Bit steps in order; the first fault ends them (R142). -/
def feedBits (bs : Bits) (s : State) : Flow :=
  match bs with
  | [] => .going s
  | b :: rest =>
    match bitStep b s with
    | .going s' => feedBits rest s'
    | .raised s' => .raised s'

/-- `Feed(h, n)`: the first `n` bits of the byte `h`, in stream order (R142). -/
def feed (h : Byte) (n : Nat) (s : State) : Flow := feedBits ((streamBits h).take n) s

end Sys2Proof.Machine
end

