-- ==== Sys2Proof/Machine/Payload.lean ====
section
/-! DEFINITION. The payload commands PUSH and FIN (spec 42_bit_unpacker.md R141, R143). -/

namespace Sys2Proof.Machine

/-- The pseudocode of PUSH (R141): release the byte held, hold the new one. A fault in the release keeps the old byte. -/
def pushBody (byte : Byte) (s : State) : Outcome :=
  match s.hold with
  | none => .next { s with hold := some byte }
  | some h =>
    match feed h Config.byteW s with
    | .raised s' => .next s'
    | .going s' => .next { s' with hold := some byte }

/-- PUSH (R141). -/
def execPush (byte : Byte) (s : State) : Outcome := guarded (.push byte) (pushBody byte) s

/-- The end of FIN's pseudocode: DEC_TRUNC inside a code word, else DONE (R143). -/
def finish (s : State) : State :=
  if s.cur ≠ [] then raise .decTrunc s else { s with phase := .done }

/-- The pseudocode of FIN (R143): release the meaningful part of the byte held. -/
def finBody (pad : BitVec 8) (s : State) : Outcome :=
  if Config.padMax < pad.toNat then .next (raise .pad s)
  else
    match s.hold with
    | none => if pad ≠ 0 then .next (raise .pad s) else .next (finish s)
    | some h =>
      match feed h (Config.byteW - pad.toNat) s with
      | .raised s' => .next s'
      | .going s' => .next (finish { s' with hold := none })

/-- FIN (R143). -/
def execFin (pad : BitVec 8) (s : State) : Outcome := guarded (.fin pad) (finBody pad) s

end Sys2Proof.Machine
end

