-- ==== Sys2Proof/Machine/TableLoad.lean ====
section
/-! DEFINITION. The table-load commands CBIT, LDC and LDL (spec 41_table_load.md R111 to R113). -/

namespace Sys2Proof.Machine

/-- The pseudocode of CBIT (R111). -/
def cbitBody (b : Bool) (s : State) : Outcome :=
  if s.stg.length = Config.maxLen then .next (raise .tblLen s)
  else .next { s with stg := s.stg ++ [b], mode := .plain }

/-- CBIT (R111). -/
def execCbit (b : Bool) (s : State) : Outcome := guarded (.cbit b) (cbitBody b) s

/-- The pseudocode of LDC (R112). -/
def ldcBody (sym : Symbol) (s : State) : Outcome :=
  if s.stg = [] then .next (raise .tblZeroLen s)
  else if (ctRead s.ct sym).isSome then .next (raise .tblDup s)
  else if conflicts s.ct s.stg then .next (raise .tblPrefix s)
  else .next (loadPlain sym s)

/-- LDC (R112). -/
def execLdc (sym : Symbol) (s : State) : Outcome := guarded (.ldc sym) (ldcBody sym) s

/-- The end of LDL's pseudocode: the insertion of the code made (R113). -/
def ldlInsert (sym : Symbol) (code : Bits) (s : State) : Outcome :=
  if conflicts s.ct code then .next (raise .tblPrefix s)
  else .next (loadCanon sym code s)

/-- LDL's tests against the previous entry, the symbol `l` with the code `prev`, and the canonical step (R113, R114). -/
def ldlAfter (sym : Symbol) (len : BitVec 8) (l : Symbol) (prev : Bits) (s : State) : Outcome :=
  if len.toNat < prev.length then .next (raise .tblOrder s)
  else if len.toNat = prev.length ∧ sym.toNat < l.toNat then .next (raise .tblOrder s)
  else if incrementOverflows prev then .next (raise .tblOver s)
  else ldlInsert sym (nextCode prev len.toNat) s

/-- The pseudocode of LDL (R113). -/
def ldlBody (sym : Symbol) (len : BitVec 8) (s : State) : Outcome :=
  if len = 0 then .next (raise .tblZeroLen s)
  else if (ctRead s.ct sym).isSome then .next (raise .tblDup s)
  else
    match s.last with
    | none => ldlInsert sym (zeros len.toNat) s
    | some l =>
      match ctRead s.ct l with
      | none => .fault .lastWithoutEntry
      | some prev => ldlAfter sym len l prev s

/-- LDL (R113). -/
def execLdl (sym : Symbol) (len : BitVec 8) (s : State) : Outcome :=
  guarded (.ldl sym len) (ldlBody sym len) s

end Sys2Proof.Machine
end

