-- ==== Sys2Proof/Machine/Dispatch.lean ====
section
/-! DEFINITION. One arm per command: the call of its meaning (spec 40_control.md R100). -/

namespace Sys2Proof.Machine

def exec (i : Instr) (s : State) : Host.Outcome State Fault Refusal :=
  match i with
  | .nop => Sys2Proof.Machine.execNop s
  | .clr => Sys2Proof.Machine.execClr s
  | .cbit b => Sys2Proof.Machine.execCbit b s
  | .ldc sym => Sys2Proof.Machine.execLdc sym s
  | .ldl sym len => Sys2Proof.Machine.execLdl sym len s
  | .sealTable => Sys2Proof.Machine.execSeal s
  | .push byte => Sys2Proof.Machine.execPush byte s
  | .fin pad => Sys2Proof.Machine.execFin pad s

end Sys2Proof.Machine
end

