-- ==== Sys2Proof/Machine/Perform.lean ====
section
/-! DEFINITION. Performing one command word, and the hardware reset between commands and inside one (spec 00_scope.md R6,
40_control.md R100, 70_reset_and_hazards.md R210, R211). -/

namespace Sys2Proof.Machine

/-- `Step(w)` (R6, R100): decode the word and perform the command, or the illegal word. -/
def performWord (w : Word) (s : State) : Outcome :=
  match decode w with
  | .ok i => exec i s
  | .error _ => .next (illegalWord s)

/-- The hardware reset between two commands: the same transition as CLR (R211). -/
def hardwareReset (s : State) : State := clear s

/-- The symbols that performing `w` in `s` would emit. -/
def emissions (w : Word) (s : State) : List Symbol :=
  match performWord w s with
  | .next s' => s'.out.drop s.out.length
  | .fault _ => []
  | .refused _ => []

/-- The hardware reset while `w` is being performed: the reset state results (R210), and a prefix of the command's
emissions, of a length the spec leaves open, got out before it (93_implementation_defined.md U16; DESIGN CHOICE, safe:
log entry 5). -/
def abandonWord (w : Word) (s : State) : State :=
  { clear s with
    out := s.out ++ (emissions w s).take (Config.resetCut s.resets)
    resets := s.resets + 1 }

/-- The word `w` next on the command channel. -/
def offerWord (w : Word) (s : State) : State := { s with inputs := .command w :: s.inputs }

/-- One input of the host, already taken from the channel. -/
def takeInput (e : HostInput) (s : State) : Outcome :=
  match e with
  | .command w => performWord w s
  | .reset => .next (hardwareReset s)
  | .resetDuring w => .next (abandonWord w s)

end Sys2Proof.Machine
end

