-- ==== Sys2Proof/Machine/Step.lean ====
section
/-! DEFINITION. One step: take the host's oldest input, or stay idle (spec 00_scope.md R5; 60_exceptions.md R195). -/

namespace Sys2Proof.Machine

/-- One step. The engine has no step of its own between commands (R5): without an input it is idle, its state intact
(R195; DEDUCED, safe: log entry 3). -/
def step (s : State) : Host.Outcome State Fault Refusal :=
  match s.inputs with
  | [] => .next s
  | e :: rest => takeInput e { s with inputs := rest }

/-- The command word `w` (its `nbits` low bits, zeros above) as the host's next input (DESIGN CHOICE, safe: log entry 2). -/
def State.withFetchWord (s : State) (nbits w : Nat) : State :=
  offerWord (BitVec.ofNat 32 (w % 2 ^ nbits)) s

end Sys2Proof.Machine
end

