-- ==== Sys2Proof/Machine/Flags.lean ====
section
/-! DEFINITION. The status flags (spec 10_state.md R42), the six status words (R36 to R40), the two output lines
(60_exceptions.md R188) and the error class of a cause (R186). -/

namespace Sys2Proof.Machine

/-- The code of a phase (R22). -/
def Phase.code : Phase → BitVec 2
  | .load => 0
  | .run => 1
  | .done => 2
  | .fault => 3

/-- The code of a table mode (R24). -/
def TableMode.code : TableMode → BitVec 2
  | .none => 0
  | .plain => 1
  | .canon => 2

/-- The code of a cause (R181). -/
def Cause.code : Cause → BitVec 4
  | .none => 0
  | .illCmd => 1
  | .seq => 2
  | .tblZeroLen => 3
  | .tblLen => 4
  | .tblDup => 5
  | .tblPrefix => 6
  | .tblOrder => 7
  | .tblOver => 8
  | .pad => 9
  | .decNoCode => 10
  | .decTrunc => 11

/-- HOLDV: 1 when a byte is held (R42). -/
def flagHoldv (s : State) : Bool := s.hold.isSome

/-- ROOT: 1 when the walker is at the root (R42). -/
def flagRoot (s : State) : Bool := s.cur.isEmpty

/-- DONE (R42). -/
def flagDone (s : State) : Bool := s.phase == .done

/-- FAULT (R42). -/
def flagFault (s : State) : Bool := s.phase == .fault

/-- STATUS, index 0 (R37): its fields, reserved bits 0. -/
def statusWord (s : State) : Word :=
  place s.phase.code 0 ||| place s.mode.code 2 ||| place s.cause.code 4 ||| place (BitVec.ofBool (flagHoldv s)) 8
    ||| place (BitVec.ofBool (flagRoot s)) 9 ||| place (BitVec.ofBool (flagDone s)) 10
    ||| place (BitVec.ofBool (flagFault s)) 11 ||| place (BitVec.ofNat 9 (nent s.ct)) 16

/-- LASTLEN: the length of the latest canonical entry's code, 0 without one (R38). -/
def lastLen (s : State) : Nat :=
  match s.last with
  | none => 0
  | some l => ((ctRead s.ct l).map List.length).getD 0

/-- LENS, index 1 (R38): its fields. -/
def lensWord (s : State) : Word :=
  place (BitVec.ofNat 8 s.stg.length) 0 ||| place (BitVec.ofNat 8 s.cur.length) 8
    ||| place (BitVec.ofNat 8 (lastLen s)) 16 ||| place (s.last.getD 0) 24

/-- The low half of a counter (R39, R40). -/
def lowHalf (n : Count) : Word := n.extractLsb' 0 32

/-- The high half of a counter (R39, R40). -/
def highHalf (n : Count) : Word := n.extractLsb' 32 32

/-- A read of the status port (R36): six words by a 3-bit index, indexes 6 and 7 read as 0. It is a value and changes
nothing (DESIGN CHOICE: log entry 10). -/
def statusRead (s : State) (index : BitVec 3) : Word :=
  match index.toNat with
  | 0 => statusWord s
  | 1 => lensWord s
  | 2 => lowHalf s.nbits
  | 3 => highHalf s.nbits
  | 4 => lowHalf s.nsyms
  | 5 => highHalf s.nsyms
  | _ => 0

/-- The output line `done` (R188). -/
def lineDone (s : State) : Bool := s.phase == .done

/-- The output line `fault` (R188). -/
def lineFault (s : State) : Bool := s.phase == .fault

/-- The document's error classes that a cause can have (R186). -/
inductive ErrorClass where
  | headerFormatError
  | decodeError
  deriving DecidableEq, Repr

/-- The class of a cause (R181, R186); ILLCMD and SEQ are driver errors without one. -/
def causeClass : Cause → Option ErrorClass
  | .none => none
  | .illCmd => none
  | .seq => none
  | .tblZeroLen => some .headerFormatError
  | .tblLen => some .headerFormatError
  | .tblDup => some .headerFormatError
  | .tblPrefix => some .headerFormatError
  | .tblOrder => some .headerFormatError
  | .tblOver => some .headerFormatError
  | .pad => some .decodeError
  | .decNoCode => some .decodeError
  | .decTrunc => some .decodeError

end Sys2Proof.Machine
end

