-- ==== Sys2Proof/Safety.lean ====
section
/-! DEFINITION. The terms in which claims about the engine are stated: valid tables, the invariants of 10_state.md R34, the
symbols a bit string spells (42_bit_unpacker.md R144), and the end of a run (70_reset_and_hazards.md R222). -/

namespace Sys2Proof.Machine

/-! ### Tables -/

/-- `Codes` is prefix-free, and no two symbols share a code (R34 item 1). -/
def PrefixFree (t : CodeTable) : Prop :=
  ∀ a b c d, ctRead t a = some c → ctRead t b = some d → a ≠ b → ¬ c <+: d

/-- Every code has 1 to 255 bits (R34 item 2). -/
def CodeLengthsLegal (t : CodeTable) : Prop :=
  ∀ a c, ctRead t a = some c → 1 ≤ c.length ∧ c.length ≤ Config.maxLen

/-- A table the checks of LDC and LDL let arise (R34 items 1 and 2). -/
structure ValidTable (t : CodeTable) : Prop where
  prefixFree : PrefixFree t
  lengths : CodeLengthsLegal t

/-- `IsNode(p)` and not `IsLeaf(p)`: where the walker may stand between bit steps (R34 item 8). -/
def atInner (t : CodeTable) (p : Bits) : Bool := isNode t p && !isLeaf t p

/-- `CT[s1] ++ … ++ CT[sm]` (R144); `none` where some symbol has no code. -/
def spell (t : CodeTable) : List Symbol → Option Bits
  | [] => some []
  | x :: xs =>
    match ctRead t x, spell t xs with
    | some c, some rest => some (c ++ rest)
    | _, _ => none

/-! ### Invariants -/

/-- The invariants of R34 that one state shows (items 1 to 9), with the widths of R20 and the canonical form of the
table's list. -/
structure EngineInv (s : State) : Prop where
  /-- The canonical form of the list that holds the table. -/
  canonicalList : s.ct.wf
  /-- Items 1 and 2. -/
  table : ValidTable s.ct
  /-- Item 3. -/
  modeNone : s.mode = .none → s.ct = [] ∧ s.stg = [] ∧ s.last = none
  /-- Item 4. -/
  modeCanon : s.mode = .canon → s.stg = [] ∧ ∃ l c, s.last = some l ∧ ctRead s.ct l = some c
  /-- Item 4. -/
  lastOnlyCanon : s.mode ≠ .canon → s.last = none
  /-- Item 5. -/
  sealedStaging : s.phase = .run ∨ s.phase = .done → s.stg = []
  /-- Item 6. -/
  loadIdle : s.phase = .load → s.hold = none ∧ s.cur = [] ∧ s.nbits = 0 ∧ s.nsyms = 0
  /-- Item 7. -/
  doneIdle : s.phase = .done → s.hold = none ∧ s.cur = []
  /-- Item 8. -/
  walkerOnTrie : atInner s.ct s.cur = true
  /-- Item 9. -/
  causeOnlyInFault : s.cause = .none ↔ s.phase ≠ .fault
  /-- R20: `stg` has at most 255 bits. -/
  stagingWidth : s.stg.length ≤ Config.maxLen

/-- `b` follows `a` in a canonical table: sorted by length and then symbol, its value the previous one plus one, shifted
by the growth in length (R117). -/
def CanonFollows (a b : Symbol × Bits) : Prop :=
  (a.2.length < b.2.length ∨ (a.2.length = b.2.length ∧ a.1.toNat < b.1.toNat)) ∧
    val b.2 = (val a.2 + 1) * 2 ^ (b.2.length - a.2.length)

/-- `order` lists the entries of the table in the order they were loaded by LDL, the first all zeros and the last named by
`last` (R34 item 10, R117). -/
structure CanonOrder (t : CodeTable) (last : Option Symbol) (order : List (Symbol × Bits)) : Prop where
  entries : order.Perm t
  follows : order.IsChain CanonFollows
  first : ∀ e ∈ order.head?, e.2 = zeros e.2.length
  latest : order.getLast?.map Prod.fst = last

/-- R34 item 10. -/
def CanonInv (s : State) : Prop := s.mode = .canon → ∃ order, CanonOrder s.ct s.last order

/-- While the run goes on, whole bytes have been consumed (R34 item 11, with the count of pushes left out). -/
def WholeBytes (s : State) : Prop := s.phase = .run → s.nbits.toNat % 8 = 0

/-! ### Runs -/

/-- The words next on the command channel, before what the host already had in mind. -/
def offerAll (ws : List Word) (s : State) : State :=
  { s with inputs := ws.map HostInput.command ++ s.inputs }

/-- The words of some assembler lines (30_encoding.md R86, R87), operands cut to their fields. -/
def wordsOf (lines : List AsmLine) : List Word :=
  lines.flatMap fun l => l.expand.map encode

/-- The engine after the host's next words, one step each. -/
def runWords (ws : List Word) (s : State) : Host.Outcome State Fault Refusal :=
  Host.Core.run Sys2Proof.core ws.length (offerAll ws s)

/-- The host's next input is CLR or a hardware reset: what ends a run (R222). -/
def nextEndsRun (s : State) : Bool :=
  match s.inputs with
  | .command w :: _ => w == 0x01000000
  | .reset :: _ => true
  | .resetDuring _ :: _ => true
  | [] => false

/-- A run has ended well: then and only then its output is the decoded data (R222). -/
def endedWell (s : State) : Bool := s.phase == .done

/-- A run has ended badly: its output is void (R222). -/
def endedBadly (s : State) : Bool := s.phase == .fault

end Sys2Proof.Machine
end

