-- ==== Sys2Proof/Certificates/Slice0/Obligations.lean ====
section
/-! DEFINITION. The statements for the provers. Each docstring names the rules of spec/ it formalises. -/

open Sys2Proof Sys2Proof.Machine

/-! ### Encoding (30_encoding.md) -/

/-- R76, R78, R79: the decoder reads back every command, with every operand at every value. -/
def Obligations.DecodeOfEncodeIsTheCommand : Prop :=
  ∀ i : Instr, i.wellFormed = true → decode (encode i) = .ok i

/-- R78, R79: each command word has one meaning; no bit of it is lost. -/
def Obligations.EncodeOfDecodeIsTheWord : Prop :=
  ∀ (w : Word) (i : Instr), decode w = .ok i → encode i = w

/-- R78, R80: the rows of the opcode map are disjoint; a word is the command of a row when `w AND mask = match`, and every
other word is illegal. -/
def Obligations.DecodeAgreesWithOpcodeMap : Prop :=
  (∀ (w : Word) (r r' : OpRow), r ∈ opcodeMap → r' ∈ opcodeMap →
    w &&& r.mask = r.pattern → w &&& r'.mask = r'.pattern → r = r') ∧
  (∀ (w : Word) (r : OpRow), r ∈ opcodeMap → w &&& r.mask = r.pattern →
    ∃ i, decode w = .ok i ∧ i.mnemonic = r.mnemonic) ∧
  (∀ w : Word, (∀ r ∈ opcodeMap, w &&& r.mask ≠ r.pattern) → ∃ e, decode w = .error e)

/-- Words written out bit by bit from the formats of R76 decode to their commands; the nearest neighbours of R80 do not
decode. -/
def Obligations.WordsOfTheFormatsDecode : Prop :=
  decode 0b00000000000000000000000000000000#32 = .ok .nop ∧
  decode 0b00000001000000000000000000000000#32 = .ok .clr ∧
  decode 0b00010000000000000000000000000001#32 = .ok (.cbit true) ∧
  decode 0b00010001000000000000000001100001#32 = .ok (.ldc 0x61) ∧
  decode 0b00010010000000000110000111111111#32 = .ok (.ldl 0x61 255) ∧
  decode 0b00010011000000000000000000000000#32 = .ok .sealTable ∧
  decode 0b00100000000000000000000011111111#32 = .ok (.push 0xFF) ∧
  decode 0b00100001000000000000000000000111#32 = .ok (.fin 7) ∧
  decode 0x00000001#32 = .error .mustBeZeroBit ∧
  decode 0x10000002#32 = .error .mustBeZeroBit ∧
  decode 0x11000100#32 = .error .mustBeZeroBit ∧
  decode 0x12010000#32 = .error .mustBeZeroBit ∧
  decode 0x02000000#32 = .error .unassignedOpcode ∧
  decode 0xFF000000#32 = .error .unassignedOpcode

/-- R86, R87: the words of each assembler line, and the operands an assembler refuses. -/
def Obligations.AssemblerGivesTheWords : Prop :=
  assemble .nop = some [0x00000000] ∧ assemble .clr = some [0x01000000] ∧ assemble .sealTable = some [0x13000000] ∧
  (∀ b, assemble (.cbit b) = if b ≤ 1 then some [BitVec.ofNat 32 (0x10000000 + b)] else none) ∧
  (∀ sym, assemble (.ldc sym) = if sym ≤ 255 then some [BitVec.ofNat 32 (0x11000000 + sym)] else none) ∧
  (∀ sym len, assemble (.ldl sym len) =
    if sym ≤ 255 ∧ len ≤ 255 then some [BitVec.ofNat 32 (0x12000000 + sym * 256 + len)] else none) ∧
  (∀ byte, assemble (.push byte) = if byte ≤ 255 then some [BitVec.ofNat 32 (0x20000000 + byte)] else none) ∧
  (∀ pad, assemble (.fin pad) = if pad ≤ 255 then some [BitVec.ofNat 32 (0x21000000 + pad)] else none) ∧
  (∀ sym code, assemble (.ldcode sym code) =
    if sym ≤ 255 ∧ 1 ≤ code.length ∧ code.length ≤ 255 then
      some (code.map (fun b => BitVec.ofNat 32 (0x10000000 + b.toNat)) ++ [BitVec.ofNat 32 (0x11000000 + sym)])
    else none) ∧
  (∀ bytes, assemble (.data bytes) =
    if ∀ x ∈ bytes, x ≤ 255 then some (bytes.map fun x => BitVec.ofNat 32 (0x20000000 + x)) else none) ∧
  (∀ pad, assemble (.endRun pad) = assemble (.fin pad))

/-! ### Steps and dispatch (40_control.md, 60_exceptions.md) -/

/-- A step runs the decoded command: the word is taken off the command channel, and nothing else stands around it
(R65, R100); without an input it is idle (R195; the model's idle step, log entry 3). -/
def Obligations.StepRunsTheDecodedCommand : Prop :=
  (∀ (s : State) (w : Word) (rest : List HostInput) (i : Instr),
    s.inputs = .command w :: rest → decode w = .ok i → step s = exec i { s with inputs := rest }) ∧
  (∀ s : State, s.inputs = [] → step s = .next s)

/-- R80, R183: an illegal word raises ILLCMD in phases LOAD, RUN and DONE, and writes only `phase` and `cause`. -/
def Obligations.IllegalWordRaisesIllcmd : Prop :=
  ∀ (s : State) (w : Word) (rest : List HostInput),
    s.inputs = .command w :: rest → (∀ r ∈ opcodeMap, w &&& r.mask ≠ r.pattern) → s.phase ≠ .fault →
      step s = .next { s with inputs := rest, phase := .fault, cause := .illCmd }

/-- R184: in phase FAULT every word but the exact word CLR is dropped. -/
def Obligations.FaultPhaseDropsEveryWordButClr : Prop :=
  ∀ (s : State) (w : Word) (rest : List HostInput),
    s.inputs = .command w :: rest → s.phase = .fault → w ≠ 0x01000000 →
      step s = .next { s with inputs := rest }

/-- R100, R110: a command that the phase or the mode does not allow raises SEQ and writes only `phase` and `cause`. -/
def Obligations.DisallowedCommandRaisesSeq : Prop :=
  ∀ s : State, s.phase ≠ .fault →
    (∀ b, s.phase ≠ .load ∨ s.mode = .canon → exec (.cbit b) s = .next { s with phase := .fault, cause := .seq }) ∧
    (∀ sym, s.phase ≠ .load ∨ s.mode = .canon → exec (.ldc sym) s = .next { s with phase := .fault, cause := .seq }) ∧
    (∀ sym len, s.phase ≠ .load ∨ s.mode = .plain →
      exec (.ldl sym len) s = .next { s with phase := .fault, cause := .seq }) ∧
    (s.phase ≠ .load → exec .sealTable s = .next { s with phase := .fault, cause := .seq }) ∧
    (∀ byte, s.phase ≠ .run → exec (.push byte) s = .next { s with phase := .fault, cause := .seq }) ∧
    (∀ pad, s.phase ≠ .run → exec (.fin pad) s = .next { s with phase := .fault, cause := .seq })

/-- R101: the word 0x00000000 is NOP; it changes no field and emits nothing, in any phase, FAULT too; 0x00000001 is not NOP
but an illegal word. -/
def Obligations.NopChangesNothing : Prop :=
  (∀ s : State, exec .nop s = .next s ∧ performWord 0x00000000 s = .next s) ∧
  (∀ s : State, s.phase ≠ .fault → performWord 0x00000001 s = .next { s with phase := .fault, cause := .illCmd })

/-- R102: the word 0x01000000 is CLR; in every phase it gives every field of the engine its reset value, so that STATUS reads
0x00000200 and both lines are low; it emits nothing and takes no symbol back; in the reset state it changes nothing. In phase
FAULT no other command has an effect, and neither has the illegal word 0x01000001. -/
def Obligations.ClrGivesTheResetState : Prop :=
  (∀ s : State, ∃ t, exec .clr s = .next t ∧ performWord 0x01000000 s = .next t ∧
    t.phase = .load ∧ t.cause = .none ∧ t.mode = .none ∧ (∀ a, ctRead t.ct a = none) ∧ t.stg = [] ∧ t.last = none ∧
    t.hold = none ∧ t.cur = [] ∧ t.nbits = 0 ∧ t.nsyms = 0 ∧ t.out = s.out ∧
    statusRead t 0 = 0x00000200 ∧ lineDone t = false ∧ lineFault t = false) ∧
  exec .clr State.reset = .next State.reset ∧
  (∀ (s : State) (i : Instr), s.phase = .fault → i ≠ .clr → exec i s = .next s) ∧
  (∀ s : State, performWord 0x01000001 s =
    .next (if s.phase = .fault then s else { s with phase := .fault, cause := .illCmd }))

/-- R103: SEAL opens the run; with staged bits left it raises SEQ. -/
def Obligations.SealOpensTheRun : Prop :=
  ∀ s : State, s.phase = .load →
    (s.stg = [] → exec .sealTable s = .next { s with phase := .run }) ∧
    (s.stg ≠ [] → exec .sealTable s = .next { s with phase := .fault, cause := .seq })

/-! ### Table load (41_table_load.md) -/

/-- R111: CBIT appends its bit to `stg` and sets mode PLAIN; with 255 bits staged it raises TBL_LEN. -/
def Obligations.CbitStagesItsBit : Prop :=
  ∀ (s : State) (b : Bool), s.phase = .load → s.mode ≠ .canon →
    (s.stg.length ≠ 255 → exec (.cbit b) s = .next { s with stg := s.stg ++ [b], mode := .plain }) ∧
    (s.stg.length = 255 → exec (.cbit b) s = .next { s with phase := .fault, cause := .tblLen })

/-- R112, R57: LDC makes the staged bits the code of its symbol, leaves every other entry, empties `stg`, sets mode PLAIN
and leaves every other field. -/
def Obligations.LdcLoadsTheStagedCode : Prop :=
  ∀ (s : State) (sym : Symbol), s.phase = .load → s.mode ≠ .canon → s.stg ≠ [] → ctRead s.ct sym = none →
    (∀ a c, ctRead s.ct a = some c → ¬ c <+: s.stg ∧ ¬ s.stg <+: c) →
    ∃ t, exec (.ldc sym) s = .next t ∧
      (∀ a, ctRead t.ct a = if a = sym then some s.stg else ctRead s.ct a) ∧
      { t with ct := s.ct } = { s with stg := [], mode := .plain }

/-- R112, R182: the faults of LDC, in the order of its tests; only `phase` and `cause` are written. -/
def Obligations.LdcFaultsInOrder : Prop :=
  ∀ (s : State) (sym : Symbol), s.phase = .load → s.mode ≠ .canon →
    (s.stg = [] → exec (.ldc sym) s = .next { s with phase := .fault, cause := .tblZeroLen }) ∧
    (s.stg ≠ [] → ctRead s.ct sym ≠ none →
      exec (.ldc sym) s = .next { s with phase := .fault, cause := .tblDup }) ∧
    (∀ a c, s.stg ≠ [] → ctRead s.ct sym = none → ctRead s.ct a = some c → c <+: s.stg ∨ s.stg <+: c →
      exec (.ldc sym) s = .next { s with phase := .fault, cause := .tblPrefix })

/-- R113, R114: the first LDL of a table gives its symbol the code of `len` zeros. -/
def Obligations.FirstLdlGivesZeros : Prop :=
  ∀ (s : State) (sym : Symbol) (len : BitVec 8), s.phase = .load → s.mode = .none → s.last = none →
    (∀ a, ctRead s.ct a = none) → len ≠ 0 →
    ∃ t, exec (.ldl sym len) s = .next t ∧
      (∀ a, ctRead t.ct a = if a = sym then some (List.replicate len.toNat false) else none) ∧
      { t with ct := s.ct } = { s with last := some sym, mode := .canon }

/-- R113, R114, R116: in a canonical table made by LDL, a later LDL in the required order, of a symbol without a code and
with the code space not used up, gives its symbol a code of the stated length whose value is the previous code's plus one,
shifted by the growth in length; every other entry and field stays. -/
def Obligations.LdlGivesTheNextCanonicalCode : Prop :=
  ∀ (s : State) (sym l : Symbol) (len : BitVec 8) (prev : Bits), EngineInv s → CanonInv s → s.phase = .load →
    s.mode = .canon → s.last = some l → ctRead s.ct l = some prev → ctRead s.ct sym = none →
    prev.length < len.toNat ∨ (len.toNat = prev.length ∧ l.toNat < sym.toNat) →
    val prev + 1 < 2 ^ prev.length →
    ∃ t code, exec (.ldl sym len) s = .next t ∧
      code.length = len.toNat ∧ val code = (val prev + 1) * 2 ^ (len.toNat - prev.length) ∧
      (∀ a, ctRead t.ct a = if a = sym then some code else ctRead s.ct a) ∧
      { t with ct := s.ct } = { s with last := some sym }

/-- R113, R115, R182: the faults of LDL, in the order of its tests; only `phase` and `cause` are written. -/
def Obligations.LdlFaultsInOrder : Prop :=
  ∀ (s : State) (sym : Symbol) (len : BitVec 8), s.phase = .load → s.mode ≠ .plain →
    (len = 0 → exec (.ldl sym len) s = .next { s with phase := .fault, cause := .tblZeroLen }) ∧
    (len ≠ 0 → ctRead s.ct sym ≠ none →
      exec (.ldl sym len) s = .next { s with phase := .fault, cause := .tblDup }) ∧
    (∀ l prev, len ≠ 0 → ctRead s.ct sym = none → s.last = some l → ctRead s.ct l = some prev →
      (len.toNat < prev.length ∨ (len.toNat = prev.length ∧ sym.toNat < l.toNat) →
        exec (.ldl sym len) s = .next { s with phase := .fault, cause := .tblOrder }) ∧
      (prev.length < len.toNat ∨ (len.toNat = prev.length ∧ l.toNat ≤ sym.toNat) → val prev + 1 = 2 ^ prev.length →
        exec (.ldl sym len) s = .next { s with phase := .fault, cause := .tblOver }))

/-- LDL in states that no run reaches: where `last` names a symbol without a code the model stops (log entry 9); where the
first code conflicts with the table it raises TBL_PREFIX, as R113 writes the test. -/
def Obligations.LdlOutsideTheInvariants : Prop :=
  ∀ (s : State) (sym : Symbol) (len : BitVec 8), s.phase = .load → s.mode ≠ .plain → len ≠ 0 →
    ctRead s.ct sym = none →
    (∀ l, s.last = some l → ctRead s.ct l = none → exec (.ldl sym len) s = .fault .lastWithoutEntry) ∧
    (s.last = none → conflicts s.ct (zeros len.toNat) = true →
      exec (.ldl sym len) s = .next { s with phase := .fault, cause := .tblPrefix })

/-- R116: in a canonical table made by LDL, no LDL ever raises TBL_PREFIX. -/
def Obligations.LdlNeverRaisesTblPrefix : Prop :=
  ∀ (s t : State) (sym : Symbol) (len : BitVec 8), EngineInv s → CanonInv s → s.phase ≠ .fault →
    exec (.ldl sym len) s = .next t → t.cause ≠ .tblPrefix

/-- R61: `Conflicts(n)` holds when some code is a prefix of `n` or `n` of it; adding `n` to a prefix-free table keeps it
prefix-free exactly when it does not conflict; in trie terms, a leaf lies at or before the end of `n`, or its end is a node
(for a non-empty `n`, as every candidate is). -/
def Obligations.ConflictsDecidesPrefixFreedom : Prop :=
  (∀ (t : CodeTable) (n : Bits), conflicts t n = true ↔ ∃ a c, ctRead t a = some c ∧ (c <+: n ∨ n <+: c)) ∧
  (∀ (t : CodeTable) (sym : Symbol) (n : Bits), PrefixFree t → ctRead t sym = none →
    (PrefixFree (ctWrite t sym n) ↔ conflicts t n = false)) ∧
  (∀ (t : CodeTable) (n : Bits), n ≠ [] →
    (conflicts t n = true ↔ (∃ p, p <+: n ∧ isLeaf t p = true) ∨ isNode t n = true))

/-- R183, R56: a CBIT, LDC, LDL or SEAL that faults writes no field but `phase` and `cause`. -/
def Obligations.TableCommandFaultWritesNothing : Prop :=
  ∀ (s t : State) (i : Instr), (∃ b, i = .cbit b) ∨ (∃ sym, i = .ldc sym) ∨ (∃ sym len, i = .ldl sym len) ∨ i = .sealTable →
    s.phase ≠ .fault → exec i s = .next t → t.phase = .fault →
      t = { s with phase := .fault, cause := t.cause } ∧ t.cause ≠ .none

/-- R57, R25: an entry that has a code keeps it until CLR or reset. -/
def Obligations.TableEntryIsWrittenOnce : Prop :=
  ∀ (s t : State) (a : Symbol) (c : Bits), step s = .next t → nextEndsRun s = false →
    ctRead s.ct a = some c → ctRead t.ct a = some c

/-- R66: after SEAL no table write is possible until CLR; CBIT, LDC and LDL raise SEQ in phases RUN and DONE. -/
def Obligations.TableIsFixedAfterSeal : Prop :=
  (∀ s t : State, step s = .next t → nextEndsRun s = false → s.phase ≠ .load → t.ct = s.ct) ∧
  (∀ (s : State) (i : Instr), s.phase = .run ∨ s.phase = .done →
    (∃ b, i = .cbit b) ∨ (∃ sym, i = .ldc sym) ∨ (∃ sym len, i = .ldl sym len) →
      exec i s = .next { s with phase := .fault, cause := .seq })

/-- R24, R110: once set, the mode does not change until CLR or reset; a command that faults does not set it. -/
def Obligations.ModeIsFixedOnceSet : Prop :=
  ∀ s t : State, step s = .next t → nextEndsRun s = false →
    (s.mode ≠ .none → t.mode = s.mode) ∧ (s.phase ≠ .fault → t.phase = .fault → t.mode = s.mode)

/-- R112, R87: with an empty table, the words of LDCODE lines load any prefix-free table of codes of 1 to 255 bits, its
entries in any order, and leave every other field but `mode`. -/
def Obligations.LdcodeLinesLoadAnyPlainTable : Prop :=
  ∀ (s : State) (entries : List (Symbol × Bits)),
    s.phase = .load → s.mode ≠ .canon → s.stg = [] → (∀ a, ctRead s.ct a = none) →
    (∀ e ∈ entries, 1 ≤ e.2.length ∧ e.2.length ≤ 255) →
    entries.Pairwise (fun e f => e.1 ≠ f.1 ∧ ¬ e.2 <+: f.2 ∧ ¬ f.2 <+: e.2) →
    ∃ t, runWords (wordsOf (entries.map fun e => .ldcode e.1.toNat e.2)) s = .next t ∧
      (∀ a c, ctRead t.ct a = some c ↔ (a, c) ∈ entries) ∧
      { t with ct := s.ct, mode := s.mode } = s

/-! ### The walker (20_memory.md, 43_tree_walk.md) -/

/-- R52: bit `i` of a byte in stream order is bit `7 − i`; 0xB0 carries 1, 0, 1, 1, 0, 0, 0, 0. -/
def Obligations.StreamBitsAreMostSignificantFirst : Prop :=
  (∀ h : Byte, streamBits h = [h.getLsbD 7, h.getLsbD 6, h.getLsbD 5, h.getLsbD 4, h.getLsbD 3, h.getLsbD 2,
    h.getLsbD 1, h.getLsbD 0]) ∧
  (∀ h : Byte, val (streamBits h) = h.toNat) ∧
  streamBits 0xB0 = [true, false, true, true, false, false, false, false]

/-- R160, R161: one bit step in a prefix-free table: off the trie it raises DEC_NOCODE and writes only `phase` and `cause`;
at a leaf it emits the symbol and returns to the root; at an inner node it moves there. -/
def Obligations.BitStepFollowsTheTrie : Prop :=
  ∀ (s : State) (b : Bool), PrefixFree s.ct →
    ((∀ a c, ctRead s.ct a = some c → ¬ s.cur ++ [b] <+: c) →
      bitStep b s = .raised { s with phase := .fault, cause := .decNoCode }) ∧
    (∀ a, ctRead s.ct a = some (s.cur ++ [b]) →
      bitStep b s = .going
        { s with nbits := s.nbits + 1, nsyms := s.nsyms + 1, out := s.out ++ [a], cur := [] }) ∧
    (∀ a c, ctRead s.ct a = some c → s.cur ++ [b] <+: c → s.cur ++ [b] ≠ c →
      bitStep b s = .going { s with nbits := s.nbits + 1, cur := s.cur ++ [b] })

/-- R60: the leaves are the codes, and the symbol of a leaf is the one that has its code; in a valid table no leaf has a
child, no leaf lies on the path to another leaf, and the root is no leaf. -/
def Obligations.LeavesEndTheirPaths : Prop :=
  (∀ (t : CodeTable) (p : Bits), isLeaf t p = true ↔ ∃ a, ctRead t a = some p) ∧
  (∀ (t : CodeTable) (p : Bits) (a : Symbol), ValidTable t → (symOf t p = some a ↔ ctRead t a = some p)) ∧
  (∀ (t : CodeTable) (p : Bits), ValidTable t → isLeaf t p = true →
    p ≠ [] ∧ (∀ b, isNode t (p ++ [b]) = false) ∧ (∀ q, isLeaf t q = true → p <+: q → p = q))

/-- R163: from the root, the bits of a code emit its symbol with the last of them; before that the walker stands inside the
code and nothing is emitted. -/
def Obligations.CodeWordEmitsItsSymbol : Prop :=
  ∀ (s : State) (a : Symbol) (c : Bits), PrefixFree s.ct → s.cur = [] → ctRead s.ct a = some c → c ≠ [] →
    feedBits c s = .going
      { s with nbits := s.nbits + BitVec.ofNat 64 c.length, nsyms := s.nsyms + 1, out := s.out ++ [a] } ∧
    (∀ k, k < c.length →
      feedBits (c.take k) s = .going { s with nbits := s.nbits + BitVec.ofNat 64 k, cur := c.take k })

/-- R164: fed from the root, a bit string ends in one of three ways: at the root or at an inner node, all of it consumed, or
in DEC_NOCODE at the first bit that leaves the trie; the symbols emitted are those of the code words before. -/
def Obligations.GreedyWalkEndsInOneOfThreeWays : Prop :=
  ∀ (s : State) (B : Bits), ValidTable s.ct → s.cur = [] →
    (∃ xs bits t, feedBits B s = .going t ∧ spell s.ct xs = some bits ∧ B = bits ++ t.cur ∧
      atInner s.ct t.cur = true ∧ t.out = s.out ++ xs ∧ t.phase = s.phase) ∨
    (∃ xs bits b rest t, feedBits B s = .raised t ∧ spell s.ct xs = some bits ∧ B = bits ++ t.cur ++ b :: rest ∧
      isNode s.ct (t.cur ++ [b]) = false ∧ t.out = s.out ++ xs ∧ t.phase = .fault ∧ t.cause = .decNoCode)

/-- R144, R164: a bit string is a concatenation of code words followed by an inner node in at most one way. -/
def Obligations.ParseIsUnique : Prop :=
  ∀ (t : CodeTable) (xs ys : List Symbol) (bits bits' r r' : Bits), ValidTable t →
    spell t xs = some bits → spell t ys = some bits' → atInner t r = true → atInner t r' = true →
    bits ++ r = bits' ++ r' → xs = ys ∧ r = r'

/-! ### Payload (42_bit_unpacker.md) -/

/-- R141, R142: the first PUSH of a run releases nothing and holds its byte. Where the walker's place and the eight bits of
the held byte are the codes of `xs` and then an inner node `r`, PUSH emits `xs`, leaves the walker at `r`, counts 8 bits and
the symbols, and holds the new byte. -/
def Obligations.PushReleasesTheHeldByte : Prop :=
  (∀ (s : State) (byte : Byte), s.phase = .run → s.hold = none →
    exec (.push byte) s = .next { s with hold := some byte }) ∧
  (∀ (s : State) (byte h : Byte) (xs : List Symbol) (bits r : Bits), s.phase = .run → ValidTable s.ct →
    s.hold = some h → atInner s.ct s.cur = true → spell s.ct xs = some bits → atInner s.ct r = true →
    s.cur ++ streamBits h = bits ++ r →
    exec (.push byte) s = .next
      { s with
        hold := some byte, cur := r, nbits := s.nbits + 8, nsyms := s.nsyms + BitVec.ofNat 64 xs.length
        out := s.out ++ xs })

/-- R141, R166, R183: where bit `k` of the held byte leaves the trie, PUSH raises DEC_NOCODE there: the bits before it stand,
the old byte stays held and the new one is lost. -/
def Obligations.PushFaultsWhereABitHasNoNode : Prop :=
  ∀ (s : State) (byte h : Byte) (xs : List Symbol) (bits r : Bits) (k : Nat), s.phase = .run → ValidTable s.ct →
    s.hold = some h → atInner s.ct s.cur = true → k < 8 → spell s.ct xs = some bits → atInner s.ct r = true →
    s.cur ++ (streamBits h).take k = bits ++ r → isNode s.ct (r ++ [streamBit h k]) = false →
    exec (.push byte) s = .next
      { s with
        phase := .fault, cause := .decNoCode, cur := r, nbits := s.nbits + BitVec.ofNat 64 k
        nsyms := s.nsyms + BitVec.ofNat 64 xs.length, out := s.out ++ xs }

/-- R143: FIN decodes the meaningful bits of the held byte and empties it; at the root it ends the run in DONE, inside a
code word it raises DEC_TRUNC. -/
def Obligations.FinDecodesTheMeaningfulBits : Prop :=
  ∀ (s : State) (pad : BitVec 8) (h : Byte) (xs : List Symbol) (bits r : Bits), s.phase = .run → ValidTable s.ct →
    s.hold = some h → atInner s.ct s.cur = true → pad.toNat ≤ 7 → spell s.ct xs = some bits → atInner s.ct r = true →
    s.cur ++ (streamBits h).take (8 - pad.toNat) = bits ++ r →
    exec (.fin pad) s = .next
      { s with
        phase := if r = [] then .done else .fault, cause := if r = [] then s.cause else .decTrunc
        hold := none, cur := r, nbits := s.nbits + BitVec.ofNat 64 (8 - pad.toNat)
        nsyms := s.nsyms + BitVec.ofNat 64 xs.length, out := s.out ++ xs }

/-- R143, R166, R183: where a meaningful bit leaves the trie, FIN raises DEC_NOCODE there and keeps the held byte. -/
def Obligations.FinFaultsWhereABitHasNoNode : Prop :=
  ∀ (s : State) (pad : BitVec 8) (h : Byte) (xs : List Symbol) (bits r : Bits) (k : Nat), s.phase = .run →
    ValidTable s.ct → s.hold = some h → atInner s.ct s.cur = true → pad.toNat ≤ 7 → k < 8 - pad.toNat →
    spell s.ct xs = some bits → atInner s.ct r = true → s.cur ++ (streamBits h).take k = bits ++ r →
    isNode s.ct (r ++ [streamBit h k]) = false →
    exec (.fin pad) s = .next
      { s with
        phase := .fault, cause := .decNoCode, cur := r, nbits := s.nbits + BitVec.ofNat 64 k
        nsyms := s.nsyms + BitVec.ofNat 64 xs.length, out := s.out ++ xs }

/-- R143, D30, R103: without a byte held, FIN 0 at the root ends the run in DONE under any table, the empty one too; any
other count raises PAD, and so does a count above 7 with a byte held; the PAD test stands before any release. -/
def Obligations.FinWithoutByteAndPadFaults : Prop :=
  ∀ (s : State) (pad : BitVec 8), s.phase = .run →
    (pad = 0 → s.hold = none → s.cur = [] → exec (.fin pad) s = .next { s with phase := .done }) ∧
    (pad ≠ 0 → s.hold = none → exec (.fin pad) s = .next { s with phase := .fault, cause := .pad }) ∧
    (7 < pad.toNat → exec (.fin pad) s = .next { s with phase := .fault, cause := .pad })

/-- R54: the padding bits are never read: two held bytes with the same meaningful bits give the same state, but for the
byte that stays held on a fault. -/
def Obligations.PaddingBitsHaveNoEffect : Prop :=
  ∀ (s t : State) (pad : BitVec 8) (h h' : Byte), s.phase = .run → s.hold = some h → pad.toNat ≤ 7 →
    (streamBits h).take (8 - pad.toNat) = (streamBits h').take (8 - pad.toNat) → exec (.fin pad) s = .next t →
    exec (.fin pad) { s with hold := some h' } = .next { t with hold := t.hold.map fun _ => h' }

/-- R67, R34 item 11: after N ≥ 1 PUSH commands with no fault, 8(N−1) bits have reached the walker and the last byte waits in
`hold`. -/
def Obligations.PushesHoldTheLastByte : Prop :=
  ∀ (s t : State) (bytes : List Byte) (byte : Byte), s.phase = .run → s.hold = none →
    runWords ((bytes ++ [byte]).map fun x => encode (.push x)) s = .next t → t.phase = .run →
    t.nbits = s.nbits + BitVec.ofNat 64 (8 * bytes.length) ∧ t.hold = some byte

/-- R145, R144: round trip. The codes of `xs` cut into bytes most significant bit first, the last filled with `pad` ≤ 7 bits
of any value, pushed and ended by FIN `pad`, decode to `xs` in phase DONE, under any valid table. -/
def Obligations.PackedPayloadRoundTrips : Prop :=
  ∀ (s : State) (xs : List Symbol) (bits padding : Bits) (bytes : List Byte), s.phase = .run → ValidTable s.ct →
    s.hold = none → s.cur = [] → spell s.ct xs = some bits → padding.length ≤ 7 →
    (bytes.map streamBits).flatten = bits ++ padding →
    runWords (wordsOf [.data (bytes.map BitVec.toNat), .endRun padding.length]) s = .next
      { s with
        phase := .done, nbits := s.nbits + BitVec.ofNat 64 bits.length
        nsyms := s.nsyms + BitVec.ofNat 64 xs.length, out := s.out ++ xs }

/-! ### Invariants over every step -/

/-- R34 items 1 to 9: the reset state meets the invariants. -/
def Obligations.ResetMeetsTheInvariants : Prop :=
  EngineInv State.reset ∧ CanonInv State.reset ∧ WholeBytes State.reset

/-- R34 items 1 to 9: every step keeps the invariants. -/
def Obligations.StepKeepsTheInvariants : Prop :=
  ∀ s t : State, EngineInv s → step s = .next t → EngineInv t

/-- R34 item 10, R117: every step keeps the order and the arithmetic of a canonical table. -/
def Obligations.StepKeepsCanonicalOrder : Prop :=
  ∀ s t : State, EngineInv s → CanonInv s → step s = .next t → CanonInv t

/-- R34 item 11, R144: while a run goes on whole bytes have been consumed, and at its end `nbits + pad` is a multiple of 8. -/
def Obligations.RunConsumesWholeBytes : Prop :=
  (∀ s t : State, EngineInv s → WholeBytes s → step s = .next t → WholeBytes t) ∧
  (∀ (s t : State) (pad : BitVec 8), WholeBytes s → exec (.fin pad) s = .next t → s.phase = .run → t.phase = .done →
    (t.nbits.toNat + pad.toNat) % 8 = 0)

/-- R100, R5: from a state that meets the invariants a step always answers a next state: the engine never blocks, and the
model never stops. -/
def Obligations.StepNeverStops : Prop :=
  ∀ s : State, EngineInv s → ∃ t, step s = .next t ∧ EngineInv t

/-- R22: the legal moves of `phase`. -/
def Obligations.PhaseMovesAreTheLegalOnes : Prop :=
  ∀ s t : State, step s = .next t → t.phase ≠ s.phase →
    (s.phase = .load ∧ t.phase = .run ∧ ∃ rest, s.inputs = .command 0x13000000 :: rest) ∨
    (s.phase = .run ∧ t.phase = .done ∧ ∃ pad rest, s.inputs = .command (encode (.fin pad)) :: rest) ∨
    (s.phase ≠ .fault ∧ t.phase = .fault ∧ t.cause ≠ .none) ∨
    (t.phase = .load ∧ nextEndsRun s = true)

/-- R23, R184, R222: until CLR or reset, phase FAULT stays with its cause, no field of the engine changes and nothing is
emitted; DONE stays up to a fault, and nothing more is emitted. -/
def Obligations.EndedRunStaysEnded : Prop :=
  ∀ s t : State, step s = .next t → nextEndsRun s = false →
    (s.phase = .fault → t.phase = .fault ∧ t.cause = s.cause ∧ t.out = s.out ∧ t = { s with inputs := t.inputs }) ∧
    (s.phase = .done → (t.phase = .done ∨ t.phase = .fault) ∧ t.out = s.out)

/-- R6, R33, R162: a step emits at most 8 symbols, appends them to the sink's record and takes none back. -/
def Obligations.OutputOnlyGrowsByAtMostEight : Prop :=
  ∀ s t : State, step s = .next t → ∃ e, t.out = s.out ++ e ∧ e.length ≤ 8

/-- R30, R31, R142, R221: only PUSH and FIN move the counters and emit, each by at most 8 bits, with at most one symbol a bit
and one count a symbol. -/
def Obligations.CountersFollowBitsAndSymbols : Prop :=
  ∀ (s t : State) (i : Instr), i ≠ .clr → exec i s = .next t →
    ∃ k e, k ≤ 8 ∧ e.length ≤ k ∧ t.nbits = s.nbits + BitVec.ofNat 64 k ∧ t.out = s.out ++ e ∧
      t.nsyms = s.nsyms + BitVec.ofNat 64 e.length ∧
      ((∀ byte, i ≠ .push byte) → (∀ pad, i ≠ .fin pad) → k = 0)

/-- The frame of the table commands and SEAL (R111, R112, R113, R103): the unpacker's and the walker's fields, the counters,
the sink and the model's own fields stay; an entry of another symbol stays. -/
def Obligations.TableCommandsFrame : Prop :=
  ∀ (s t : State) (i : Instr), (∃ b, i = .cbit b) ∨ (∃ sym, i = .ldc sym) ∨ (∃ sym len, i = .ldl sym len) ∨ i = .sealTable →
    exec i s = .next t →
    t.hold = s.hold ∧ t.cur = s.cur ∧ t.nbits = s.nbits ∧ t.nsyms = s.nsyms ∧ t.out = s.out ∧ t.inputs = s.inputs ∧
    t.resets = s.resets ∧
    (∀ a, i ≠ .ldc a → (∀ len, i ≠ .ldl a len) → ctRead t.ct a = ctRead s.ct a) ∧
    ((∃ sym len, i = .ldl sym len) ∨ t.last = s.last)

/-- The frame of the payload commands (R141, R143): the table, `mode`, `stg`, `last` and the model's own fields stay. -/
def Obligations.PayloadCommandsFrame : Prop :=
  ∀ (s t : State) (i : Instr), (∃ byte, i = .push byte) ∨ (∃ pad, i = .fin pad) → exec i s = .next t →
    t.ct = s.ct ∧ t.mode = s.mode ∧ t.stg = s.stg ∧ t.last = s.last ∧ t.inputs = s.inputs ∧ t.resets = s.resets

/-! ### Status words and lines (10_state.md) -/

/-- R32: `nent` counts the symbols that have a code, and is at most 256. -/
def Obligations.NentCountsTheEntries : Prop :=
  ∀ t : CodeTable, nent t = (Finset.univ.filter fun a : Fin 256 => ctRead t (BitVec.ofFin a) ≠ none).card ∧ nent t ≤ 256

/-- R37, R42, and the codes of R22, R24, R181: the fields of STATUS. PHASE is 0 LOAD, 1 RUN, 2 DONE, 3 FAULT; MODE is 0 NONE,
1 PLAIN, 2 CANON; CAUSE is 0 NONE, 1 ILLCMD, 2 SEQ, 3 TBL_ZEROLEN, 4 TBL_LEN, 5 TBL_DUP, 6 TBL_PREFIX, 7 TBL_ORDER,
8 TBL_OVER, 9 PAD, 10 DEC_NOCODE, 11 DEC_TRUNC; then the four flags and NENT; the reserved bits are 0. -/
def Obligations.StatusWordHasItsFields : Prop :=
  ∀ s : State,
    ((statusRead s 0).extractLsb' 0 2 = 0 ↔ s.phase = .load) ∧ ((statusRead s 0).extractLsb' 0 2 = 1 ↔ s.phase = .run) ∧
    ((statusRead s 0).extractLsb' 0 2 = 2 ↔ s.phase = .done) ∧ ((statusRead s 0).extractLsb' 0 2 = 3 ↔ s.phase = .fault) ∧
    ((statusRead s 0).extractLsb' 2 2 = 0 ↔ s.mode = .none) ∧ ((statusRead s 0).extractLsb' 2 2 = 1 ↔ s.mode = .plain) ∧
    ((statusRead s 0).extractLsb' 2 2 = 2 ↔ s.mode = .canon) ∧
    ((statusRead s 0).extractLsb' 4 4 = 0 ↔ s.cause = .none) ∧
    ((statusRead s 0).extractLsb' 4 4 = 1 ↔ s.cause = .illCmd) ∧
    ((statusRead s 0).extractLsb' 4 4 = 2 ↔ s.cause = .seq) ∧
    ((statusRead s 0).extractLsb' 4 4 = 3 ↔ s.cause = .tblZeroLen) ∧
    ((statusRead s 0).extractLsb' 4 4 = 4 ↔ s.cause = .tblLen) ∧
    ((statusRead s 0).extractLsb' 4 4 = 5 ↔ s.cause = .tblDup) ∧
    ((statusRead s 0).extractLsb' 4 4 = 6 ↔ s.cause = .tblPrefix) ∧
    ((statusRead s 0).extractLsb' 4 4 = 7 ↔ s.cause = .tblOrder) ∧
    ((statusRead s 0).extractLsb' 4 4 = 8 ↔ s.cause = .tblOver) ∧
    ((statusRead s 0).extractLsb' 4 4 = 9 ↔ s.cause = .pad) ∧
    ((statusRead s 0).extractLsb' 4 4 = 10 ↔ s.cause = .decNoCode) ∧
    ((statusRead s 0).extractLsb' 4 4 = 11 ↔ s.cause = .decTrunc) ∧
    ((statusRead s 0).getLsbD 8 = true ↔ s.hold ≠ none) ∧ ((statusRead s 0).getLsbD 9 = true ↔ s.cur = []) ∧
    ((statusRead s 0).getLsbD 10 = true ↔ s.phase = .done) ∧ ((statusRead s 0).getLsbD 11 = true ↔ s.phase = .fault) ∧
    (statusRead s 0).extractLsb' 12 4 = 0 ∧ ((statusRead s 0).extractLsb' 16 9).toNat = nent s.ct ∧
    (statusRead s 0).extractLsb' 25 7 = 0

/-- R38: the fields of LENS, in states that meet the invariants (the widths of R20). -/
def Obligations.LensWordHasItsFields : Prop :=
  ∀ s : State, EngineInv s →
    ((statusRead s 1).extractLsb' 0 8).toNat = s.stg.length ∧ ((statusRead s 1).extractLsb' 8 8).toNat = s.cur.length ∧
    (s.last = none → (statusRead s 1).extractLsb' 16 8 = 0 ∧ (statusRead s 1).extractLsb' 24 8 = 0) ∧
    (∀ l c, s.last = some l → ctRead s.ct l = some c →
      ((statusRead s 1).extractLsb' 16 8).toNat = c.length ∧ (statusRead s 1).extractLsb' 24 8 = l)

/-- R36, R39, R40: indexes 2 to 5 are the halves of the counters, 6 and 7 read as 0. -/
def Obligations.CounterWordsAreTheHalves : Prop :=
  ∀ s : State,
    s.nbits.toNat = (statusRead s 3).toNat * 2 ^ 32 + (statusRead s 2).toNat ∧
    s.nsyms.toNat = (statusRead s 5).toNat * 2 ^ 32 + (statusRead s 4).toNat ∧
    statusRead s 6 = 0 ∧ statusRead s 7 = 0

/-- R188: the lines are functions of `phase` and never 1 together. -/
def Obligations.LinesFollowThePhase : Prop :=
  ∀ s : State, (lineDone s = true ↔ s.phase = .done) ∧ (lineFault s = true ↔ s.phase = .fault) ∧
    ¬ (lineDone s = true ∧ lineFault s = true)

/-- R186: the causes whose class is HeaderFormatError, DecodeError, or none. -/
def Obligations.CausesHaveTheirClasses : Prop :=
  ∀ c : Cause,
    (causeClass c = some .headerFormatError ↔ 3 ≤ c.code.toNat ∧ c.code.toNat ≤ 8) ∧
    (causeClass c = some .decodeError ↔ 9 ≤ c.code.toNat ∧ c.code.toNat ≤ 11) ∧
    (causeClass c = none ↔ c.code.toNat ≤ 2)

/-! ### Reset (70_reset_and_hazards.md) -/

/-- R41: the values after reset: the fields, the status words and the lines. -/
def Obligations.ResetValues : Prop :=
  State.reset.phase = .load ∧ State.reset.cause = .none ∧ State.reset.mode = .none ∧
  (∀ a, ctRead State.reset.ct a = none) ∧ State.reset.stg = [] ∧ State.reset.last = none ∧ State.reset.hold = none ∧
  State.reset.cur = [] ∧ State.reset.nbits = 0 ∧ State.reset.nsyms = 0 ∧ nent State.reset.ct = 0 ∧
  statusRead State.reset 0 = 0x00000200 ∧ statusRead State.reset 1 = 0 ∧ statusRead State.reset 2 = 0 ∧
  statusRead State.reset 3 = 0 ∧ statusRead State.reset 4 = 0 ∧ statusRead State.reset 5 = 0 ∧
  lineDone State.reset = false ∧ lineFault State.reset = false

/-- R211, R210: a hardware reset between commands (it arrives as a host input: log entry 4) is the same transition as CLR, and
writes exactly the reset values; neither erases the symbols emitted; the model's own fields stay. -/
def Obligations.HardwareResetActsAsClr : Prop :=
  ∀ (s : State) (rest : List HostInput), s.inputs = .reset :: rest →
    step s = exec .clr { s with inputs := rest } ∧
    step s = .next { State.reset with out := s.out, inputs := rest, resets := s.resets }

/-- R210, U16: a hardware reset inside a command abandons it: every engine field has its reset value, and some prefix of the
symbols the command would have emitted got out. -/
def Obligations.ResetInsideACommandAbandonsIt : Prop :=
  ∀ (s u : State) (w : Word) (rest : List HostInput), s.inputs = .resetDuring w :: rest →
    step { s with inputs := .command w :: rest } = .next u →
    ∃ e full, u.out = s.out ++ full ∧ e <+: full ∧
      step s = .next
        { phase := .load, cause := .none, mode := .none, ct := [], stg := [], last := none, hold := none, cur := [],
          nbits := 0, nsyms := 0, out := s.out ++ e, inputs := rest, resets := s.resets + 1 }
end

