-- ==== Sys2Proof/Laws/Decode.lean ====
section
/-! SUPPORT. The bits of a placed field, of a masked word and of the operand fields (spec 30_encoding.md R76 to R78). -/

namespace Sys2Proof

/-- The bits of a field placed in a word. -/
theorem getLsbD_place {n : Nat} (v : BitVec n) (lo i : Nat) :
    (place v lo).getLsbD i = (decide (i < 32) && decide (lo ≤ i) && v.getLsbD (i - lo)) := by
  rw [place, BitVec.getLsbD_shiftLeft, BitVec.getLsbD_setWidth]
  by_cases h : i < lo
  · simp [h, Nat.not_le.2 h]
  · by_cases h' : i < 32
    · simp [h, h', Nat.not_lt.1 h, show i - lo < 32 by omega]
    · simp [h']

theorem getElem_place {n : Nat} (v : BitVec n) (lo i : Nat) (h : i < 32) :
    (place v lo)[i] = (decide (lo ≤ i) && v.getLsbD (i - lo)) := by
  rw [← BitVec.getLsbD_eq_getElem, getLsbD_place]; simp [h]

/-- Where the mask of a row has a one, a word of the row has the bit of the row's match (R78). -/
theorem getLsbD_of_masked {w m p : Word} (h : w &&& m = p) {i : Nat} (hm : m.getLsbD i = true) :
    w.getLsbD i = p.getLsbD i := by
  rw [← h, BitVec.getLsbD_and, hm, Bool.and_true]

theorem getLsbD_fieldA (w : Word) (i : Nat) : (fieldA w).getLsbD i = (decide (i < 8) && w.getLsbD i) := by
  simp [fieldA, BitVec.getLsbD_extractLsb']

theorem getLsbD_fieldSym (w : Word) (i : Nat) : (fieldSym w).getLsbD i = (decide (i < 8) && w.getLsbD (8 + i)) := by
  simp [fieldSym, BitVec.getLsbD_extractLsb']

end Sys2Proof
end

