-- ==== Sys2Proof/Laws/Operands.lean ====
section
/-! SUPPORT. Bit strings and their values (spec 00_scope.md R8, 41_table_load.md R114). -/

namespace Sys2Proof.Machine

theorem val_foldl (v : Nat) (p : Bits) :
    p.foldl (fun v b => 2 * v + b.toNat) v = v * 2 ^ p.length + val p := by
  induction p generalizing v with
  | nil => simp [val]
  | cons b p ih =>
    have h0 : val (b :: p) = (2 * 0 + b.toNat) * 2 ^ p.length + val p := by rw [val, List.foldl_cons, ih]
    rw [List.foldl_cons, ih, h0, List.length_cons, pow_succ]
    ring

@[simp] theorem val_nil : val [] = 0 := rfl

@[simp] theorem val_cons (b : Bool) (p : Bits) : val (b :: p) = b.toNat * 2 ^ p.length + val p := by
  rw [val, List.foldl_cons, val_foldl]; simp

theorem val_append (p q : Bits) : val (p ++ q) = val p * 2 ^ q.length + val q := by
  rw [val, List.foldl_append, val_foldl]; rfl

theorem val_lt (p : Bits) : val p < 2 ^ p.length := by
  induction p with
  | nil => simp
  | cons b p ih => cases b <;> simp [pow_succ] <;> omega

@[simp] theorem length_zeros (n : Nat) : (zeros n).length = n := by simp [zeros]

@[simp] theorem val_zeros (n : Nat) : val (zeros n) = 0 := by
  induction n with
  | zero => rfl
  | succ n ih => rw [zeros, List.replicate_succ, val_cons, ← zeros, ih]; simp

@[simp] theorem length_bitsOf (n v : Nat) : (bitsOf n v).length = n := by
  induction n with
  | zero => rfl
  | succ n ih => simp [bitsOf, ih]

theorem val_bitsOf_mod (n v : Nat) : val (bitsOf n v) = v % 2 ^ n := by
  induction n with
  | zero => simp [bitsOf, Nat.mod_one]
  | succ n ih =>
    rw [bitsOf, val_cons, ih, length_bitsOf, Nat.mod_pow_succ, Nat.testBit_eq_decide_div_mod_eq]
    have : v / 2 ^ n % 2 = 0 ∨ v / 2 ^ n % 2 = 1 := by omega
    rcases this with h | h <;> simp [h, Nat.add_comm]

/-- `bits_n(v)` has the value `v` (R8). -/
theorem val_bitsOf {n v : Nat} (h : v < 2 ^ n) : val (bitsOf n v) = v := by
  rw [val_bitsOf_mod, Nat.mod_eq_of_lt h]

/-- A bit string is determined by its length and value (R8). -/
theorem eq_of_val_eq {p q : Bits} (hl : p.length = q.length) (hv : val p = val q) : p = q := by
  induction p generalizing q with
  | nil => exact (List.length_eq_zero_iff.1 hl.symm).symm
  | cons b p ih =>
    cases q with
    | nil => simp at hl
    | cons b' q =>
      have hlen : p.length = q.length := by simpa using hl
      rw [val_cons, val_cons, hlen] at hv
      have h1 := val_lt p
      have h2 := val_lt q
      rw [hlen] at h1
      cases b <;> cases b' <;> simp at hv <;> first | omega | simp [ih hlen hv]

theorem length_nextCode {prev : Bits} {len : Nat} (h : prev.length ≤ len) : (nextCode prev len).length = len := by
  simp [nextCode]; omega

/-- `val(next) = (val(prev) + 1) · 2^(len − pl)` (R114). -/
theorem val_nextCode {prev : Bits} (len : Nat) (h : incrementOverflows prev = false) :
    val (nextCode prev len) = (val prev + 1) * 2 ^ (len - prev.length) := by
  have hlt := val_lt prev
  have : val prev + 1 ≠ 2 ^ prev.length := by simpa [incrementOverflows] using h
  rw [nextCode, val_append, val_zeros, length_zeros, val_bitsOf (by omega)]
  rfl

@[simp] theorem length_streamBits (h : Byte) : (streamBits h).length = 8 := by simp [streamBits]

theorem getElem?_streamBits (h : Byte) {i : Nat} (hi : i < 8) : (streamBits h)[i]? = some (streamBit h i) := by
  simp [streamBits, hi]

end Sys2Proof.Machine
end

