-- ==== Sys2Proof/Laws/State.lean ====
section
/-! SUPPORT. One lemma per field and named update of the state: what it writes and what it leaves. -/

namespace Sys2Proof.Machine

/-! ### `raise` -/

@[simp] theorem raise_phase (c : Cause) (s : State) : (raise c s).phase = .fault := rfl
@[simp] theorem raise_cause (c : Cause) (s : State) : (raise c s).cause = c := rfl
@[simp] theorem raise_mode (c : Cause) (s : State) : (raise c s).mode = s.mode := rfl
@[simp] theorem raise_ct (c : Cause) (s : State) : (raise c s).ct = s.ct := rfl
@[simp] theorem raise_stg (c : Cause) (s : State) : (raise c s).stg = s.stg := rfl
@[simp] theorem raise_last (c : Cause) (s : State) : (raise c s).last = s.last := rfl
@[simp] theorem raise_hold (c : Cause) (s : State) : (raise c s).hold = s.hold := rfl
@[simp] theorem raise_cur (c : Cause) (s : State) : (raise c s).cur = s.cur := rfl
@[simp] theorem raise_nbits (c : Cause) (s : State) : (raise c s).nbits = s.nbits := rfl
@[simp] theorem raise_nsyms (c : Cause) (s : State) : (raise c s).nsyms = s.nsyms := rfl
@[simp] theorem raise_out (c : Cause) (s : State) : (raise c s).out = s.out := rfl
@[simp] theorem raise_inputs (c : Cause) (s : State) : (raise c s).inputs = s.inputs := rfl
@[simp] theorem raise_resets (c : Cause) (s : State) : (raise c s).resets = s.resets := rfl

/-! ### `clear` -/

@[simp] theorem clear_phase (s : State) : (clear s).phase = .load := rfl
@[simp] theorem clear_cause (s : State) : (clear s).cause = .none := rfl
@[simp] theorem clear_mode (s : State) : (clear s).mode = .none := rfl
@[simp] theorem clear_ct (s : State) : (clear s).ct = [] := rfl
@[simp] theorem clear_stg (s : State) : (clear s).stg = [] := rfl
@[simp] theorem clear_last (s : State) : (clear s).last = none := rfl
@[simp] theorem clear_hold (s : State) : (clear s).hold = none := rfl
@[simp] theorem clear_cur (s : State) : (clear s).cur = [] := rfl
@[simp] theorem clear_nbits (s : State) : (clear s).nbits = 0 := rfl
@[simp] theorem clear_nsyms (s : State) : (clear s).nsyms = 0 := rfl
@[simp] theorem clear_out (s : State) : (clear s).out = s.out := rfl
@[simp] theorem clear_inputs (s : State) : (clear s).inputs = s.inputs := rfl
@[simp] theorem clear_resets (s : State) : (clear s).resets = s.resets := rfl

/-! ### `emit` -/

@[simp] theorem emit_phase (sym : Symbol) (s : State) : (emit sym s).phase = s.phase := rfl
@[simp] theorem emit_cause (sym : Symbol) (s : State) : (emit sym s).cause = s.cause := rfl
@[simp] theorem emit_mode (sym : Symbol) (s : State) : (emit sym s).mode = s.mode := rfl
@[simp] theorem emit_ct (sym : Symbol) (s : State) : (emit sym s).ct = s.ct := rfl
@[simp] theorem emit_stg (sym : Symbol) (s : State) : (emit sym s).stg = s.stg := rfl
@[simp] theorem emit_last (sym : Symbol) (s : State) : (emit sym s).last = s.last := rfl
@[simp] theorem emit_hold (sym : Symbol) (s : State) : (emit sym s).hold = s.hold := rfl
@[simp] theorem emit_cur (sym : Symbol) (s : State) : (emit sym s).cur = s.cur := rfl
@[simp] theorem emit_nbits (sym : Symbol) (s : State) : (emit sym s).nbits = s.nbits := rfl
@[simp] theorem emit_nsyms (sym : Symbol) (s : State) : (emit sym s).nsyms = s.nsyms + 1 := rfl
@[simp] theorem emit_out (sym : Symbol) (s : State) : (emit sym s).out = s.out ++ [sym] := rfl
@[simp] theorem emit_inputs (sym : Symbol) (s : State) : (emit sym s).inputs = s.inputs := rfl
@[simp] theorem emit_resets (sym : Symbol) (s : State) : (emit sym s).resets = s.resets := rfl

/-! ### `countBit` -/

@[simp] theorem countBit_phase (s : State) : (countBit s).phase = s.phase := rfl
@[simp] theorem countBit_cause (s : State) : (countBit s).cause = s.cause := rfl
@[simp] theorem countBit_mode (s : State) : (countBit s).mode = s.mode := rfl
@[simp] theorem countBit_ct (s : State) : (countBit s).ct = s.ct := rfl
@[simp] theorem countBit_stg (s : State) : (countBit s).stg = s.stg := rfl
@[simp] theorem countBit_last (s : State) : (countBit s).last = s.last := rfl
@[simp] theorem countBit_hold (s : State) : (countBit s).hold = s.hold := rfl
@[simp] theorem countBit_cur (s : State) : (countBit s).cur = s.cur := rfl
@[simp] theorem countBit_nbits (s : State) : (countBit s).nbits = s.nbits + 1 := rfl
@[simp] theorem countBit_nsyms (s : State) : (countBit s).nsyms = s.nsyms := rfl
@[simp] theorem countBit_out (s : State) : (countBit s).out = s.out := rfl
@[simp] theorem countBit_inputs (s : State) : (countBit s).inputs = s.inputs := rfl
@[simp] theorem countBit_resets (s : State) : (countBit s).resets = s.resets := rfl

/-! ### `loadPlain` -/

@[simp] theorem loadPlain_phase (sym : Symbol) (s : State) : (loadPlain sym s).phase = s.phase := rfl
@[simp] theorem loadPlain_cause (sym : Symbol) (s : State) : (loadPlain sym s).cause = s.cause := rfl
@[simp] theorem loadPlain_mode (sym : Symbol) (s : State) : (loadPlain sym s).mode = .plain := rfl
@[simp] theorem loadPlain_ct (sym : Symbol) (s : State) : (loadPlain sym s).ct = ctWrite s.ct sym s.stg := rfl
@[simp] theorem loadPlain_stg (sym : Symbol) (s : State) : (loadPlain sym s).stg = [] := rfl
@[simp] theorem loadPlain_last (sym : Symbol) (s : State) : (loadPlain sym s).last = s.last := rfl
@[simp] theorem loadPlain_hold (sym : Symbol) (s : State) : (loadPlain sym s).hold = s.hold := rfl
@[simp] theorem loadPlain_cur (sym : Symbol) (s : State) : (loadPlain sym s).cur = s.cur := rfl
@[simp] theorem loadPlain_nbits (sym : Symbol) (s : State) : (loadPlain sym s).nbits = s.nbits := rfl
@[simp] theorem loadPlain_nsyms (sym : Symbol) (s : State) : (loadPlain sym s).nsyms = s.nsyms := rfl
@[simp] theorem loadPlain_out (sym : Symbol) (s : State) : (loadPlain sym s).out = s.out := rfl
@[simp] theorem loadPlain_inputs (sym : Symbol) (s : State) : (loadPlain sym s).inputs = s.inputs := rfl
@[simp] theorem loadPlain_resets (sym : Symbol) (s : State) : (loadPlain sym s).resets = s.resets := rfl

/-! ### `loadCanon` -/

@[simp] theorem loadCanon_phase (sym : Symbol) (code : Bits) (s : State) : (loadCanon sym code s).phase = s.phase := rfl
@[simp] theorem loadCanon_cause (sym : Symbol) (code : Bits) (s : State) : (loadCanon sym code s).cause = s.cause := rfl
@[simp] theorem loadCanon_mode (sym : Symbol) (code : Bits) (s : State) : (loadCanon sym code s).mode = .canon := rfl
@[simp] theorem loadCanon_ct (sym : Symbol) (code : Bits) (s : State) : (loadCanon sym code s).ct = ctWrite s.ct sym code := rfl
@[simp] theorem loadCanon_stg (sym : Symbol) (code : Bits) (s : State) : (loadCanon sym code s).stg = s.stg := rfl
@[simp] theorem loadCanon_last (sym : Symbol) (code : Bits) (s : State) : (loadCanon sym code s).last = some sym := rfl
@[simp] theorem loadCanon_hold (sym : Symbol) (code : Bits) (s : State) : (loadCanon sym code s).hold = s.hold := rfl
@[simp] theorem loadCanon_cur (sym : Symbol) (code : Bits) (s : State) : (loadCanon sym code s).cur = s.cur := rfl
@[simp] theorem loadCanon_nbits (sym : Symbol) (code : Bits) (s : State) : (loadCanon sym code s).nbits = s.nbits := rfl
@[simp] theorem loadCanon_nsyms (sym : Symbol) (code : Bits) (s : State) : (loadCanon sym code s).nsyms = s.nsyms := rfl
@[simp] theorem loadCanon_out (sym : Symbol) (code : Bits) (s : State) : (loadCanon sym code s).out = s.out := rfl
@[simp] theorem loadCanon_inputs (sym : Symbol) (code : Bits) (s : State) : (loadCanon sym code s).inputs = s.inputs := rfl
@[simp] theorem loadCanon_resets (sym : Symbol) (code : Bits) (s : State) : (loadCanon sym code s).resets = s.resets := rfl

/-! ### `offerWord` -/

@[simp] theorem offerWord_phase (w : Word) (s : State) : (offerWord w s).phase = s.phase := rfl
@[simp] theorem offerWord_cause (w : Word) (s : State) : (offerWord w s).cause = s.cause := rfl
@[simp] theorem offerWord_mode (w : Word) (s : State) : (offerWord w s).mode = s.mode := rfl
@[simp] theorem offerWord_ct (w : Word) (s : State) : (offerWord w s).ct = s.ct := rfl
@[simp] theorem offerWord_stg (w : Word) (s : State) : (offerWord w s).stg = s.stg := rfl
@[simp] theorem offerWord_last (w : Word) (s : State) : (offerWord w s).last = s.last := rfl
@[simp] theorem offerWord_hold (w : Word) (s : State) : (offerWord w s).hold = s.hold := rfl
@[simp] theorem offerWord_cur (w : Word) (s : State) : (offerWord w s).cur = s.cur := rfl
@[simp] theorem offerWord_nbits (w : Word) (s : State) : (offerWord w s).nbits = s.nbits := rfl
@[simp] theorem offerWord_nsyms (w : Word) (s : State) : (offerWord w s).nsyms = s.nsyms := rfl
@[simp] theorem offerWord_out (w : Word) (s : State) : (offerWord w s).out = s.out := rfl
@[simp] theorem offerWord_inputs (w : Word) (s : State) : (offerWord w s).inputs = .command w :: s.inputs := rfl
@[simp] theorem offerWord_resets (w : Word) (s : State) : (offerWord w s).resets = s.resets := rfl

@[simp] theorem Flow.state_going (s : State) : (Flow.going s).state = s := rfl
@[simp] theorem Flow.state_raised (s : State) : (Flow.raised s).state = s := rfl

end Sys2Proof.Machine
end

