-- ==== Sys2Proof/Laws/Table.lean ====
section
/-! SUPPORT. The code table: reads after writes, the canonical form of its list, and what the trie view says in terms of
`CT[s]` (spec 20_memory.md R58 to R61). -/

namespace Sys2Proof.Machine

@[simp] theorem ctRead_nil (a : Symbol) : ctRead [] a = none := rfl

theorem ctRead_cons (e : Symbol × Bits) (t : CodeTable) (a : Symbol) :
    ctRead (e :: t) a = if e.1 = a then some e.2 else ctRead t a := rfl

/-- A read after a write: the entry written, else what was there. -/
theorem ctRead_ctWrite (t : CodeTable) (s : Symbol) (c : Bits) (a : Symbol) :
    ctRead (ctWrite t s c) a = if a = s then some c else ctRead t a := by
  induction t with
  | nil => simp [ctWrite, ctRead_cons, eq_comm]
  | cons e rest ih =>
    unfold ctWrite
    split
    · simp [ctRead_cons, eq_comm]
    · split
      · next h => subst h; by_cases ha : a = e.1 <;> simp [ctRead_cons, ha, eq_comm]
      · next h =>
        rw [ctRead_cons, ih, ctRead_cons]
        by_cases ha : a = s
        · subst ha; simp [h]
        · simp [ha]

@[simp] theorem ctRead_ctWrite_same (t : CodeTable) (s : Symbol) (c : Bits) :
    ctRead (ctWrite t s c) s = some c := by simp [ctRead_ctWrite]

theorem ctRead_ctWrite_other (t : CodeTable) {s a : Symbol} (c : Bits) (h : a ≠ s) :
    ctRead (ctWrite t s c) a = ctRead t a := by simp [ctRead_ctWrite, h]

theorem mem_ctWrite {t : CodeTable} {s : Symbol} {c : Bits} {e : Symbol × Bits}
    (h : e ∈ ctWrite t s c) : e = (s, c) ∨ e ∈ t := by
  induction t with
  | nil => simpa [ctWrite] using h
  | cons x rest ih =>
    unfold ctWrite at h
    split at h
    · simpa using h
    · split at h
      · rcases List.mem_cons.1 h with h | h
        · exact .inl h
        · exact .inr (List.mem_cons_of_mem _ h)
      · rcases List.mem_cons.1 h with h | h
        · exact .inr (h ▸ List.mem_cons_self)
        · exact (ih h).imp id (List.mem_cons_of_mem _)

/-- A table write keeps the canonical form. -/
theorem ctWrite_wf {t : CodeTable} (h : t.wf) (s : Symbol) (c : Bits) : (ctWrite t s c).wf := by
  induction t with
  | nil => simp [ctWrite, CodeTable.wf]
  | cons e rest ih =>
    have ⟨he, hrest⟩ := List.pairwise_cons.1 h
    unfold ctWrite
    split
    · next hlt =>
      refine List.pairwise_cons.2 ⟨?_, h⟩
      intro x hx
      rcases List.mem_cons.1 hx with rfl | hx
      · exact hlt
      · exact lt_trans hlt (he x hx)
    · split
      · next heq => exact List.pairwise_cons.2 ⟨fun x hx => heq ▸ he x hx, hrest⟩
      · next hlt hne =>
        refine List.pairwise_cons.2 ⟨?_, ih hrest⟩
        intro x hx
        rcases mem_ctWrite hx with rfl | hx
        · have : e.1.toNat ≠ s.toNat := fun h => hne (BitVec.eq_of_toNat_eq h)
          show e.1.toNat < s.toNat
          omega
        · exact he x hx

theorem ctRead_eq_none_iff {t : CodeTable} {a : Symbol} : ctRead t a = none ↔ a ∉ ctSymbols t := by
  induction t with
  | nil => simp [ctSymbols]
  | cons e rest ih =>
    rw [ctRead_cons]
    by_cases h : e.1 = a <;> simp_all [ctSymbols, eq_comm]

theorem mem_ctSymbols {t : CodeTable} {a : Symbol} : a ∈ ctSymbols t ↔ ∃ c, ctRead t a = some c := by
  rw [← Option.ne_none_iff_exists', ne_eq, ctRead_eq_none_iff, not_not]

/-- `Codes = { CT[s] : CT[s] ≠ none }` (R58), for every list. -/
theorem mem_codes {t : CodeTable} {c : Bits} : c ∈ codes t ↔ ∃ a, ctRead t a = some c := by
  simp only [codes, List.mem_filterMap]
  exact ⟨fun ⟨a, _, h⟩ => ⟨a, h⟩, fun ⟨a, h⟩ => ⟨a, mem_ctSymbols.2 ⟨c, h⟩, h⟩⟩

/-- `IsNode` in terms of `CT` (R59, R160). -/
theorem isNode_iff {t : CodeTable} {p : Bits} :
    isNode t p = true ↔ p = [] ∨ ∃ a c, ctRead t a = some c ∧ p <+: c := by
  simp only [isNode, Bool.or_eq_true, List.isEmpty_iff, List.any_eq_true, List.isPrefixOf_iff_prefix]
  refine or_congr_right ⟨fun ⟨c, hc, hp⟩ => ?_, fun ⟨a, c, h, hp⟩ => ⟨c, mem_codes.2 ⟨a, h⟩, hp⟩⟩
  obtain ⟨a, h⟩ := mem_codes.1 hc
  exact ⟨a, c, h, hp⟩

/-- `IsLeaf` in terms of `CT` (R60). -/
theorem isLeaf_iff {t : CodeTable} {p : Bits} : isLeaf t p = true ↔ ∃ a, ctRead t a = some p := by
  simp [isLeaf, mem_codes]

/-- `Conflicts` in terms of `CT` (R61). -/
theorem conflicts_iff {t : CodeTable} {n : Bits} :
    conflicts t n = true ↔ ∃ a c, ctRead t a = some c ∧ (c <+: n ∨ n <+: c) := by
  simp only [conflicts, List.any_eq_true, Bool.or_eq_true, List.isPrefixOf_iff_prefix]
  refine ⟨fun ⟨c, hc, hp⟩ => ?_, fun ⟨a, c, h, hp⟩ => ⟨c, mem_codes.2 ⟨a, h⟩, hp⟩⟩
  obtain ⟨a, h⟩ := mem_codes.1 hc
  exact ⟨a, c, h, hp⟩

theorem conflicts_eq_false_iff {t : CodeTable} {n : Bits} :
    conflicts t n = false ↔ ∀ a c, ctRead t a = some c → ¬ c <+: n ∧ ¬ n <+: c := by
  rw [← Bool.not_eq_true, conflicts_iff]
  push Not
  rfl

theorem symOf_some {t : CodeTable} {p : Bits} {a : Symbol} (h : symOf t p = some a) :
    ctRead t a = some p := by
  simpa using List.find?_some h

theorem symOf_eq_none_iff {t : CodeTable} {p : Bits} : symOf t p = none ↔ isLeaf t p = false := by
  rw [← Bool.not_eq_true, isLeaf_iff]
  simp only [symOf, List.find?_eq_none, beq_iff_eq, not_exists]
  exact ⟨fun h a ha => h a (mem_ctSymbols.2 ⟨p, ha⟩) ha, fun h a _ => h a⟩

/-- In a prefix-free table `SymOf` answers exactly the symbol with the code (R60). -/
theorem symOf_eq_some_iff {t : CodeTable} (hp : PrefixFree t) {p : Bits} {a : Symbol} :
    symOf t p = some a ↔ ctRead t a = some p := by
  refine ⟨symOf_some, fun h => ?_⟩
  cases hs : symOf t p with
  | none =>
    have := symOf_eq_none_iff.1 hs
    rw [isLeaf_iff.2 ⟨a, h⟩] at this
    exact absurd this (by decide)
  | some b =>
    by_contra hne
    exact hp b a p p (symOf_some hs) h (fun e => hne (e ▸ rfl)) (List.prefix_refl p)

theorem atInner_iff {t : CodeTable} {p : Bits} :
    atInner t p = true ↔ isNode t p = true ∧ ∀ a, ctRead t a ≠ some p := by
  rw [atInner, Bool.and_eq_true, Bool.not_eq_true', ← Bool.not_eq_true, isLeaf_iff, not_exists]

/-- The root is an inner node of every table whose codes are not empty. -/
theorem atInner_root {t : CodeTable} (h : CodeLengthsLegal t) : atInner t [] = true :=
  atInner_iff.2 ⟨by simp [isNode], fun a ha => by simpa using (h a [] ha).1⟩

theorem ctRead_eq_some_of_mem {t : CodeTable} (h : t.wf) {e : Symbol × Bits} (he : e ∈ t) :
    ctRead t e.1 = some e.2 := by
  induction t with
  | nil => simp at he
  | cons x rest ih =>
    have ⟨hx, hrest⟩ := List.pairwise_cons.1 h
    rw [ctRead_cons]
    rcases List.mem_cons.1 he with rfl | he
    · simp
    · have : x.1 ≠ e.1 := fun heq => by have := hx e he; simp [heq] at this
      simp [this, ih hrest he]

theorem mem_of_ctRead {t : CodeTable} {a : Symbol} {c : Bits} (h : ctRead t a = some c) : (a, c) ∈ t := by
  induction t with
  | nil => simp at h
  | cons x rest ih =>
    rw [ctRead_cons] at h
    split at h
    · next heq => cases h; subst heq; exact List.mem_cons_self
    · exact List.mem_cons_of_mem _ (ih h)

/-- The number of entries is at most the number of symbols (R32). -/
theorem nent_le (t : CodeTable) : nent t ≤ Config.nsym := by
  have h := (List.nodup_dedup (ctSymbols t)).map (f := fun b : Symbol => b.toFin) BitVec.toFin_injective
  have := h.length_le_card
  simpa [nent] using this

theorem spell_cons {t : CodeTable} {x : Symbol} {xs : List Symbol} {bits : Bits} :
    spell t (x :: xs) = some bits ↔
      ∃ c rest, ctRead t x = some c ∧ spell t xs = some rest ∧ bits = c ++ rest := by
  rw [spell]
  constructor
  · intro h
    split at h
    · next c rest hc hr => exact ⟨c, rest, hc, hr, (Option.some.inj h).symm⟩
    · cases h
  · rintro ⟨c, rest, hc, hr, rfl⟩
    rw [hc, hr]

end Sys2Proof.Machine
end

