-- ==== Sys2Proof/Laws/Walker.lean ====
section
/-! SUPPORT. Everything a bit step, and a sequence of them, can do (spec 43_tree_walk.md R160, R166; 42_bit_unpacker.md
R142). -/

namespace Sys2Proof.Machine

/-- The state after `k` bits that emitted the symbols `e` and left the walker at `p`: what bit steps write (R160). -/
def walked (s : State) (k : Nat) (e : List Symbol) (p : Bits) : State :=
  { s with cur := p, nbits := s.nbits + BitVec.ofNat 64 k, nsyms := s.nsyms + BitVec.ofNat 64 e.length, out := s.out ++ e }

theorem walked_zero (s : State) : walked s 0 [] s.cur = s := by simp [walked]

theorem walked_walked (s : State) (k k' : Nat) (e e' : List Symbol) (p p' : Bits) :
    walked (walked s k e p) k' e' p' = walked s (k + k') (e ++ e') p' := by
  simp [walked, BitVec.ofNat_add, BitVec.add_assoc]

@[simp] theorem walked_ct (s : State) (k : Nat) (e : List Symbol) (p : Bits) : (walked s k e p).ct = s.ct := rfl
@[simp] theorem walked_cur (s : State) (k : Nat) (e : List Symbol) (p : Bits) : (walked s k e p).cur = p := rfl
@[simp] theorem walked_phase (s : State) (k : Nat) (e : List Symbol) (p : Bits) : (walked s k e p).phase = s.phase := rfl
@[simp] theorem walked_hold (s : State) (k : Nat) (e : List Symbol) (p : Bits) : (walked s k e p).hold = s.hold := rfl
@[simp] theorem walked_out (s : State) (k : Nat) (e : List Symbol) (p : Bits) : (walked s k e p).out = s.out ++ e := rfl

/-- The three things a bit step can do: emit at a leaf, move to an inner node, fault off the trie. -/
theorem bitStep_cases (b : Bool) (s : State) :
    (∃ sym, symOf s.ct (s.cur ++ [b]) = some sym ∧ bitStep b s = .going (walked s 1 [sym] [])) ∨
    (isNode s.ct (s.cur ++ [b]) = true ∧ isLeaf s.ct (s.cur ++ [b]) = false ∧
      bitStep b s = .going (walked s 1 [] (s.cur ++ [b]))) ∨
    (isNode s.ct (s.cur ++ [b]) = false ∧ bitStep b s = .raised (raise .decNoCode s)) := by
  cases hn : isNode s.ct (s.cur ++ [b]) with
  | false => exact .inr (.inr ⟨rfl, by simp [bitStep, hn]⟩)
  | true =>
    cases hs : symOf s.ct (s.cur ++ [b]) with
    | some sym => exact .inl ⟨sym, rfl, by simp [bitStep, hn, hs, walked, emit, countBit]⟩
    | none => exact .inr (.inl ⟨rfl, symOf_eq_none_iff.1 hs, by simp [bitStep, hn, hs, walked, countBit]⟩)

theorem feedBits_cons (b : Bool) (rest : Bits) (s : State) :
    feedBits (b :: rest) s =
      match bitStep b s with
      | .going s' => feedBits rest s'
      | .raised s' => .raised s' := rfl

/-- Feeding two strings in turn. -/
theorem feedBits_append (p q : Bits) (s : State) :
    feedBits (p ++ q) s =
      match feedBits p s with
      | .going s' => feedBits q s'
      | .raised s' => .raised s' := by
  induction p generalizing s with
  | nil => rfl
  | cons b p ih =>
    rw [List.cons_append, feedBits_cons, feedBits_cons]
    cases bitStep b s with
    | going s' => exact ih s'
    | raised s' => rfl

/-- Everything a sequence of bit steps can do: all bits consumed, or DEC_NOCODE at one of them; at most one symbol a bit;
only `cur`, `nbits`, `nsyms`, `out` and, on the fault, `phase` and `cause` written. -/
theorem feedBits_effect (bs : Bits) (s : State) :
    (∃ e p, feedBits bs s = .going (walked s bs.length e p) ∧ e.length ≤ bs.length ∧
      (CodeLengthsLegal s.ct → atInner s.ct s.cur = true → atInner s.ct p = true)) ∨
    (∃ e p k, feedBits bs s = .raised (raise .decNoCode (walked s k e p)) ∧ k < bs.length ∧ e.length ≤ k ∧
      (CodeLengthsLegal s.ct → atInner s.ct s.cur = true → atInner s.ct p = true)) := by
  induction bs generalizing s with
  | nil => exact .inl ⟨[], s.cur, by simp [feedBits, walked_zero], by simp, fun _ h => h⟩
  | cons b rest ih =>
    have key : ∀ e1 p1, e1.length ≤ 1 → bitStep b s = .going (walked s 1 e1 p1) →
        (CodeLengthsLegal s.ct → atInner s.ct s.cur = true → atInner s.ct p1 = true) →
        (∃ e p, feedBits (b :: rest) s = .going (walked s (b :: rest).length e p) ∧ e.length ≤ (b :: rest).length ∧
          (CodeLengthsLegal s.ct → atInner s.ct s.cur = true → atInner s.ct p = true)) ∨
        (∃ e p k, feedBits (b :: rest) s = .raised (raise .decNoCode (walked s k e p)) ∧ k < (b :: rest).length ∧
          e.length ≤ k ∧ (CodeLengthsLegal s.ct → atInner s.ct s.cur = true → atInner s.ct p = true)) := by
      intro e1 p1 he1 hb hi
      rw [feedBits_cons, hb]
      rcases ih (walked s 1 e1 p1) with ⟨e, p, hf, he, hin⟩ | ⟨e, p, k, hf, hk, he, hin⟩
      · refine .inl ⟨e1 ++ e, p, ?_, ?_, fun hl h => hin hl (hi hl h)⟩
        · show feedBits rest _ = _
          rw [hf, walked_walked, List.length_cons, Nat.add_comm]
        · simp; omega
      · refine .inr ⟨e1 ++ e, p, 1 + k, ?_, ?_, ?_, fun hl h => hin hl (hi hl h)⟩
        · show feedBits rest _ = _
          rw [hf, walked_walked]
        · simp; omega
        · simp; omega
    rcases bitStep_cases b s with ⟨sym, _, hb⟩ | ⟨hn, hl, hb⟩ | ⟨_, hb⟩
    · exact key [sym] [] (by simp) hb fun hl _ => atInner_root hl
    · exact key [] _ (by simp) hb fun _ _ => by simp [atInner, hn, hl]
    · refine .inr ⟨[], s.cur, 0, ?_, by simp, by simp, fun _ h => h⟩
      rw [feedBits_cons, hb, walked_zero]

end Sys2Proof.Machine
end

