-- ==== Sys2Proof/Laws/Dispatch.lean ====
section
/-! SUPPORT. What the dispatch checks and each command's own pseudocode can end in, said once (spec 40_control.md R100 and
the rule of each command). -/

namespace Sys2Proof.Machine

/-! ### The dispatch checks -/

/-- The three ways past the dispatch checks (R100). -/
theorem guarded_cases (i : Instr) (body : State → Outcome) (s : State) :
    (s.phase = .fault ∧ guarded i body s = .next s) ∨
    (s.phase ≠ .fault ∧ allowed i s.phase s.mode = false ∧ guarded i body s = .next (raise .seq s)) ∨
    (s.phase ≠ .fault ∧ allowed i s.phase s.mode = true ∧ guarded i body s = body s) := by
  unfold guarded
  by_cases hp : s.phase = .fault
  · exact .inl ⟨hp, if_pos hp⟩
  · cases ha : allowed i s.phase s.mode with
    | false => exact .inr (.inl ⟨hp, rfl, by simp [hp]⟩)
    | true => exact .inr (.inr ⟨hp, rfl, by simp [hp]⟩)

theorem guarded_dropped {i : Instr} {body : State → Outcome} {s : State} (h : s.phase = .fault) :
    guarded i body s = .next s := if_pos h

theorem guarded_seq {i : Instr} {body : State → Outcome} {s : State} (h : s.phase ≠ .fault)
    (ha : allowed i s.phase s.mode = false) : guarded i body s = .next (raise .seq s) := by
  simp [guarded, h, ha]

theorem guarded_body {i : Instr} {body : State → Outcome} {s : State} (h : s.phase ≠ .fault)
    (ha : allowed i s.phase s.mode = true) : guarded i body s = body s := by
  simp [guarded, h, ha]

/-! ### The bodies -/

/-- SEAL (R103). -/
theorem sealBody_cases (s : State) :
    sealBody s = .next (raise .seq s) ∨ (s.stg = [] ∧ sealBody s = .next { s with phase := .run }) := by
  unfold sealBody
  by_cases h : s.stg = [] <;> simp [h]

/-- CBIT (R111). -/
theorem cbitBody_cases (b : Bool) (s : State) :
    cbitBody b s = .next (raise .tblLen s) ∨
    (s.stg.length ≠ Config.maxLen ∧ cbitBody b s = .next { s with stg := s.stg ++ [b], mode := .plain }) := by
  unfold cbitBody
  by_cases h : s.stg.length = Config.maxLen <;> simp [h]

/-- LDC (R112). -/
theorem ldcBody_cases (sym : Symbol) (s : State) :
    (∃ c, c ≠ .none ∧ ldcBody sym s = .next (raise c s)) ∨
    (s.stg ≠ [] ∧ ctRead s.ct sym = none ∧ conflicts s.ct s.stg = false ∧
      ldcBody sym s = .next (loadPlain sym s)) := by
  unfold ldcBody
  by_cases h1 : s.stg = []
  · exact .inl ⟨.tblZeroLen, by decide, if_pos h1⟩
  · rw [if_neg h1]
    cases h2 : ctRead s.ct sym with
    | some c => exact .inl ⟨.tblDup, by decide, rfl⟩
    | none =>
      cases h3 : conflicts s.ct s.stg with
      | true => exact .inl ⟨.tblPrefix, by decide, rfl⟩
      | false => exact .inr ⟨h1, rfl, rfl, rfl⟩

theorem ldlInsert_cases (sym : Symbol) (code : Bits) (s : State) :
    (conflicts s.ct code = true ∧ ldlInsert sym code s = .next (raise .tblPrefix s)) ∨
    (conflicts s.ct code = false ∧ ldlInsert sym code s = .next (loadCanon sym code s)) := by
  unfold ldlInsert
  cases conflicts s.ct code <;> simp

/-- The code LDL makes for an entry of length `len` (R113, R114): `none` where a test of LDL's stands before it. -/
def ldlCode (s : State) (sym : Symbol) (len : Nat) : Option Bits :=
  match s.last with
  | none => some (zeros len)
  | some l =>
    match ctRead s.ct l with
    | none => none
    | some prev =>
      if len < prev.length ∨ (len = prev.length ∧ sym.toNat < l.toNat) ∨ incrementOverflows prev = true then none
      else some (nextCode prev len)

/-- LDL (R113): a fault of its own tests, the stop of log entry 9, or the insertion of the code made. -/
theorem ldlBody_cases (sym : Symbol) (len : BitVec 8) (s : State) :
    (∃ c, c ≠ .none ∧ c ≠ .tblPrefix ∧ ldlBody sym len s = .next (raise c s)) ∨
    (∃ l, s.last = some l ∧ ctRead s.ct l = none ∧ ldlBody sym len s = .fault .lastWithoutEntry) ∨
    (∃ code, len ≠ 0 ∧ ctRead s.ct sym = none ∧ ldlCode s sym len.toNat = some code ∧
      ldlBody sym len s = ldlInsert sym code s) := by
  unfold ldlBody ldlCode
  by_cases h1 : len = 0
  · exact .inl ⟨.tblZeroLen, by decide, by decide, if_pos h1⟩
  · rw [if_neg h1]
    cases h2 : ctRead s.ct sym with
    | some c => exact .inl ⟨.tblDup, by decide, by decide, rfl⟩
    | none =>
      cases h3 : s.last with
      | none => exact .inr (.inr ⟨_, h1, rfl, rfl, rfl⟩)
      | some l =>
        cases h4 : ctRead s.ct l with
        | none => exact .inr (.inl ⟨l, rfl, h4, by simp [h4]⟩)
        | some prev =>
          simp only [h4, Option.isSome_none, Bool.false_eq_true, if_false]
          unfold ldlAfter
          by_cases h5 : len.toNat < prev.length
          · exact .inl ⟨.tblOrder, by decide, by decide, if_pos h5⟩
          · by_cases h6 : len.toNat = prev.length ∧ sym.toNat < l.toNat
            · exact .inl ⟨.tblOrder, by decide, by decide, by rw [if_neg h5, if_pos h6]⟩
            · cases h7 : incrementOverflows prev with
              | true => exact .inl ⟨.tblOver, by decide, by decide, by rw [if_neg h5, if_neg h6, if_pos rfl]⟩
              | false =>
                refine .inr (.inr ⟨nextCode prev len.toNat, h1, trivial, ?_, ?_⟩)
                · exact if_neg (by rintro (h | h | h) <;> first | exact h5 h | exact h6 h | cases h)
                · rw [if_neg h5, if_neg h6, if_neg (by decide)]

/-- PUSH (R141). -/
theorem pushBody_cases (byte : Byte) (s : State) :
    (s.hold = none ∧ pushBody byte s = .next { s with hold := some byte }) ∨
    (∃ h e p, s.hold = some h ∧ feed h 8 s = .going (walked s 8 e p) ∧ e.length ≤ 8 ∧
      (CodeLengthsLegal s.ct → atInner s.ct s.cur = true → atInner s.ct p = true) ∧
      pushBody byte s = .next { walked s 8 e p with hold := some byte }) ∨
    (∃ h e p k, s.hold = some h ∧ k < 8 ∧ e.length ≤ k ∧
      (CodeLengthsLegal s.ct → atInner s.ct s.cur = true → atInner s.ct p = true) ∧
      feed h 8 s = .raised (raise .decNoCode (walked s k e p)) ∧
      pushBody byte s = .next (raise .decNoCode (walked s k e p))) := by
  unfold pushBody
  cases hh : s.hold with
  | none => exact .inl ⟨rfl, rfl⟩
  | some h =>
    refine .inr ?_
    have hlen : ((streamBits h).take 8).length = 8 := by simp
    rcases feedBits_effect ((streamBits h).take 8) s with ⟨e, p, hf, he, hi⟩ | ⟨e, p, k, hf, hk, he, hi⟩
    · rw [hlen] at hf he
      exact .inl ⟨h, e, p, rfl, hf, he, hi, by show (match feed h 8 s with | _ => _) = _; rw [feed, hf]⟩
    · rw [hlen] at hk
      exact .inr ⟨h, e, p, k, rfl, hk, he, hi, hf, by show (match feed h 8 s with | _ => _) = _; rw [feed, hf]⟩

theorem finish_cases (s : State) :
    (s.cur = [] ∧ finish s = { s with phase := .done }) ∨ (s.cur ≠ [] ∧ finish s = raise .decTrunc s) := by
  unfold finish
  by_cases h : s.cur = [] <;> simp [h]

/-- FIN (R143). -/
theorem finBody_cases (pad : BitVec 8) (s : State) :
    finBody pad s = .next (raise .pad s) ∨
    (pad = 0 ∧ s.hold = none ∧ finBody pad s = .next (finish s)) ∨
    (∃ h e p, pad.toNat ≤ 7 ∧ s.hold = some h ∧ e.length ≤ 8 - pad.toNat ∧
      (CodeLengthsLegal s.ct → atInner s.ct s.cur = true → atInner s.ct p = true) ∧
      feed h (8 - pad.toNat) s = .going (walked s (8 - pad.toNat) e p) ∧
      finBody pad s = .next (finish { walked s (8 - pad.toNat) e p with hold := none })) ∨
    (∃ h e p k, pad.toNat ≤ 7 ∧ s.hold = some h ∧ k < 8 - pad.toNat ∧ e.length ≤ k ∧
      (CodeLengthsLegal s.ct → atInner s.ct s.cur = true → atInner s.ct p = true) ∧
      feed h (8 - pad.toNat) s = .raised (raise .decNoCode (walked s k e p)) ∧
      finBody pad s = .next (raise .decNoCode (walked s k e p))) := by
  unfold finBody
  by_cases hp : 7 < pad.toNat
  · exact .inl (if_pos hp)
  · rw [if_neg hp]
    cases hh : s.hold with
    | none =>
      by_cases h0 : pad = 0
      · exact .inr (.inl ⟨h0, rfl, by simp [h0]⟩)
      · exact .inl (if_pos h0)
    | some h =>
      refine .inr (.inr ?_)
      have hlen : ((streamBits h).take (8 - pad.toNat)).length = 8 - pad.toNat := by simp
      rcases feedBits_effect ((streamBits h).take (8 - pad.toNat)) s with ⟨e, p, hf, he, hi⟩ | ⟨e, p, k, hf, hk, he, hi⟩
      · rw [hlen] at hf he
        exact .inl ⟨h, e, p, by omega, rfl, he, hi, hf,
          by show (match feed h (8 - pad.toNat) s with | _ => _) = _; rw [feed, hf]⟩
      · rw [hlen] at hk
        exact .inr ⟨h, e, p, k, by omega, rfl, hk, he, hi, hf,
          by show (match feed h (8 - pad.toNat) s with | _ => _) = _; rw [feed, hf]⟩

end Sys2Proof.Machine
end

