-- ==== Sys2Proof/Laws/PerInstr.lean ====
section
/-! SUPPORT. The family `WordForm`, one lemma per command: the word made for it is a command of its own row of the opcode
map (spec 30_encoding.md R76, R78). -/

namespace Sys2Proof.Laws.WordForm

/-- The encoded word has the row's match under the row's mask. -/
def Statement (i : Instr) : Prop :=
  ∃ r ∈ opcodeMap, r.mnemonic = i.mnemonic ∧ encode i &&& r.mask = r.pattern

theorem nop : Statement .nop :=
  ⟨⟨"NOP", 0xFFFFFFFF, 0x00000000⟩, by decide, rfl, by decide⟩

theorem clr : Statement .clr :=
  ⟨⟨"CLR", 0xFFFFFFFF, 0x01000000⟩, by decide, rfl, by decide⟩

theorem cbit (b : Bool) : Statement (.cbit b) := by
  refine ⟨⟨"CBIT", 0xFFFFFFFE, 0x10000000⟩, by decide, rfl, ?_⟩
  cases b <;> decide

/-- A word of format B: opcode byte, sixteen zeros, the operand byte. -/
theorem formatB_masked (op a : BitVec 8) : (place op 24 ||| place a 0) &&& 0xFFFFFF00#32 = place op 24 := by
  ext i hi
  simp only [place, BitVec.getElem_and, BitVec.getElem_or, BitVec.getElem_shiftLeft, BitVec.getElem_setWidth]
  interval_cases i <;> simp

theorem ldc (sym : Symbol) : Statement (.ldc sym) :=
  ⟨⟨"LDC", 0xFFFFFF00, 0x11000000⟩, by decide, rfl, (formatB_masked 0x11 sym).trans (by decide)⟩

theorem ldl (sym : Symbol) (len : BitVec 8) : Statement (.ldl sym len) := by
  refine ⟨⟨"LDL", 0xFFFF0000, 0x12000000⟩, by decide, rfl, ?_⟩
  have : (place 0x12#8 24 ||| place sym 8 ||| place len 0) &&& 0xFFFF0000#32 = place 0x12#8 24 := by
    ext i hi
    simp only [place, BitVec.getElem_and, BitVec.getElem_or, BitVec.getElem_shiftLeft, BitVec.getElem_setWidth]
    interval_cases i <;> simp
  exact this.trans (by decide)

theorem sealTable : Statement .sealTable :=
  ⟨⟨"SEAL", 0xFFFFFFFF, 0x13000000⟩, by decide, rfl, by decide⟩

theorem push (byte : Byte) : Statement (.push byte) :=
  ⟨⟨"PUSH", 0xFFFFFF00, 0x20000000⟩, by decide, rfl, (formatB_masked 0x20 byte).trans (by decide)⟩

theorem fin (pad : BitVec 8) : Statement (.fin pad) :=
  ⟨⟨"FIN", 0xFFFFFF00, 0x21000000⟩, by decide, rfl, (formatB_masked 0x21 pad).trans (by decide)⟩

end Sys2Proof.Laws.WordForm

namespace Sys2Proof

/-- Every operand of every command fits its field, by its type (R77). -/
theorem Instr.wellFormed_all (i : Instr) : i.wellFormed = true := by
  have fits : ∀ a : BitVec 8, decide (a.toNat < 2 ^ 8) = true := fun a => decide_eq_true a.isLt
  cases i with
  | nop => rfl
  | clr => rfl
  | cbit b => cases b <;> rfl
  | ldc sym => simp only [Instr.wellFormed, Instr.operands, List.all_cons, List.all_nil, Bool.and_true, fits]
  | ldl sym len => simp only [Instr.wellFormed, Instr.operands, List.all_cons, List.all_nil, Bool.and_true, fits]
  | sealTable => rfl
  | push byte => simp only [Instr.wellFormed, Instr.operands, List.all_cons, List.all_nil, Bool.and_true, fits]
  | fin pad => simp only [Instr.wellFormed, Instr.operands, List.all_cons, List.all_nil, Bool.and_true, fits]

end Sys2Proof
end

