-- ==== Sys2Proof/Laws/Step.lean ====
section
/-! SUPPORT. Everything a command, and a step, can do, said once (spec 40_control.md R100, 00_scope.md R5, R6). -/

namespace Sys2Proof.Machine

/-- What a command did that was performed and raised no fault. -/
inductive Performed (i : Instr) (s t : State) : Prop where
  | cbit (b : Bool) (hi : i = .cbit b) (hp : s.phase = .load) (hm : s.mode ≠ .canon)
      (hl : s.stg.length ≠ Config.maxLen) (ht : t = { s with stg := s.stg ++ [b], mode := .plain })
  | ldc (sym : Symbol) (hi : i = .ldc sym) (hp : s.phase = .load) (hm : s.mode ≠ .canon) (hs : s.stg ≠ [])
      (hf : ctRead s.ct sym = none) (hc : conflicts s.ct s.stg = false) (ht : t = loadPlain sym s)
  | ldl (sym : Symbol) (len : BitVec 8) (code : Bits) (hi : i = .ldl sym len) (hp : s.phase = .load)
      (hm : s.mode ≠ .plain) (hl : len ≠ 0) (hf : ctRead s.ct sym = none)
      (hcode : ldlCode s sym len.toNat = some code) (hc : conflicts s.ct code = false) (ht : t = loadCanon sym code s)
  | sealTable (hi : i = .sealTable) (hp : s.phase = .load) (hs : s.stg = []) (ht : t = { s with phase := .run })
  | pushFirst (byte : Byte) (hi : i = .push byte) (hp : s.phase = .run) (hh : s.hold = none)
      (ht : t = { s with hold := some byte })
  | pushNext (byte h : Byte) (e : List Symbol) (p : Bits) (hi : i = .push byte) (hp : s.phase = .run)
      (hh : s.hold = some h) (he : e.length ≤ 8)
      (hin : CodeLengthsLegal s.ct → atInner s.ct s.cur = true → atInner s.ct p = true)
      (ht : t = { walked s 8 e p with hold := some byte })
  | finEmpty (hi : i = .fin 0) (hp : s.phase = .run) (hh : s.hold = none) (hc : s.cur = [])
      (ht : t = { s with phase := .done })
  | finLast (pad : BitVec 8) (h : Byte) (e : List Symbol) (hi : i = .fin pad) (hp : s.phase = .run)
      (hpad : pad.toNat ≤ 7) (hh : s.hold = some h) (he : e.length ≤ 8 - pad.toNat)
      (ht : t = { walked s (8 - pad.toNat) e [] with hold := none, phase := .done })

/-- What a command did that was performed and raised a fault. -/
inductive Faulted (i : Instr) (s t : State) : Prop where
  | atOnce (c : Cause) (hc : c ≠ .none)
      (hpre : c = .tblPrefix → (∃ sym, i = .ldc sym) ∨ ∃ sym len code, i = .ldl sym len ∧ s.phase = .load ∧
        s.mode ≠ .plain ∧ ctRead s.ct sym = none ∧ ldlCode s sym len.toNat = some code ∧ conflicts s.ct code = true)
      (ht : t = raise c s)
  | noCode (e : List Symbol) (p : Bits) (k : Nat) (hi : (∃ byte, i = .push byte) ∨ ∃ pad, i = .fin pad)
      (hp : s.phase = .run) (hk : k < 8) (he : e.length ≤ k)
      (hin : CodeLengthsLegal s.ct → atInner s.ct s.cur = true → atInner s.ct p = true)
      (ht : t = raise .decNoCode (walked s k e p))
  | trunc (pad : BitVec 8) (e : List Symbol) (p : Bits) (hi : i = .fin pad) (hp : s.phase = .run)
      (hpad : pad.toNat ≤ 7) (he : e.length ≤ 8 - pad.toNat)
      (hin : CodeLengthsLegal s.ct → atInner s.ct s.cur = true → atInner s.ct p = true)
      (ht : t = raise .decTrunc { walked s (8 - pad.toNat) e p with hold := none })

/-- Everything a command can do when it answers a next state. -/
theorem exec_cases {i : Instr} {s t : State} (h : exec i s = .next t) :
    (t = s ∧ (i = .nop ∨ (s.phase = .fault ∧ i ≠ .clr))) ∨ (i = .clr ∧ t = clear s) ∨
    (s.phase ≠ .fault ∧ (Performed i s t ∨ Faulted i s t)) := by
  have seqFault : ∀ {i : Instr} {body : State → Outcome}, i ≠ .nop → i ≠ .clr →
      guarded i body s = .next t →
      (allowed i s.phase s.mode = true → body s = .next t → Performed i s t ∨ Faulted i s t) →
      (t = s ∧ (i = .nop ∨ (s.phase = .fault ∧ i ≠ .clr))) ∨ (i = .clr ∧ t = clear s) ∨
        (s.phase ≠ .fault ∧ (Performed i s t ∨ Faulted i s t)) := by
    intro i body hn hc hg hb
    rcases guarded_cases i body s with ⟨hp, hd⟩ | ⟨hp, _, hd⟩ | ⟨hp, ha, hd⟩ <;> rw [hd] at hg
    · cases hg; exact .inl ⟨rfl, .inr ⟨hp, hc⟩⟩
    · cases hg; exact .inr (.inr ⟨hp, .inr (.atOnce .seq (by decide) (by intro h; cases h) rfl)⟩)
    · exact .inr (.inr ⟨hp, hb ha hg⟩)
  cases i with
  | nop => cases h; exact .inl ⟨rfl, .inl rfl⟩
  | clr => cases h; exact .inr (.inl ⟨rfl, rfl⟩)
  | cbit b =>
    refine seqFault (by simp) (by simp) h fun ha hb => ?_
    obtain ⟨hp, hm⟩ : s.phase = .load ∧ s.mode ≠ .canon := by simpa [allowed] using ha
    rcases cbitBody_cases b s with hd | ⟨hl, hd⟩ <;> rw [hd] at hb <;> cases hb
    · exact .inr (.atOnce _ (by decide) (by intro h; cases h) rfl)
    · exact .inl (.cbit b rfl hp hm hl rfl)
  | ldc sym =>
    refine seqFault (by simp) (by simp) h fun ha hb => ?_
    obtain ⟨hp, hm⟩ : s.phase = .load ∧ s.mode ≠ .canon := by simpa [allowed] using ha
    rcases ldcBody_cases sym s with ⟨c, hc, hd⟩ | ⟨h1, h2, h3, hd⟩ <;> rw [hd] at hb <;> cases hb
    · exact .inr (.atOnce c hc (fun _ => .inl ⟨sym, rfl⟩) rfl)
    · exact .inl (.ldc sym rfl hp hm h1 h2 h3 rfl)
  | ldl sym len =>
    refine seqFault (by simp) (by simp) h fun ha hb => ?_
    obtain ⟨hp, hm⟩ : s.phase = .load ∧ s.mode ≠ .plain := by simpa [allowed] using ha
    rcases ldlBody_cases sym len s with ⟨c, hc, hc', hd⟩ | ⟨l, _, _, hd⟩ | ⟨code, h1, h2, h3, hd⟩ <;> rw [hd] at hb
    · cases hb; exact .inr (.atOnce c hc (fun h => absurd h hc') rfl)
    · cases hb
    · rcases ldlInsert_cases sym code s with ⟨h4, hd⟩ | ⟨h4, hd⟩ <;> rw [hd] at hb <;> cases hb
      · exact .inr (.atOnce _ (by decide) (fun _ => .inr ⟨sym, len, code, rfl, hp, hm, h2, h3, h4⟩) rfl)
      · exact .inl (.ldl sym len code rfl hp hm h1 h2 h3 h4 rfl)
  | sealTable =>
    refine seqFault (by simp) (by simp) h fun ha hb => ?_
    have hp : s.phase = .load := by simpa [allowed] using ha
    rcases sealBody_cases s with hd | ⟨hs, hd⟩ <;> rw [hd] at hb <;> cases hb
    · exact .inr (.atOnce _ (by decide) (by intro h; cases h) rfl)
    · exact .inl (.sealTable rfl hp hs rfl)
  | push byte =>
    refine seqFault (by simp) (by simp) h fun ha hb => ?_
    have hp : s.phase = .run := by simpa [allowed] using ha
    rcases pushBody_cases byte s with ⟨hh, hd⟩ | ⟨x, e, p, hh, _, he, hin, hd⟩ | ⟨_, e, p, k, _, hk, he, hin, _, hd⟩ <;>
      rw [hd] at hb <;> cases hb
    · exact .inl (.pushFirst byte rfl hp hh rfl)
    · exact .inl (.pushNext byte x e p rfl hp hh he hin rfl)
    · exact .inr (.noCode e p k (.inl ⟨byte, rfl⟩) hp hk he hin rfl)
  | fin pad =>
    refine seqFault (by simp) (by simp) h fun ha hb => ?_
    have hp : s.phase = .run := by simpa [allowed] using ha
    rcases finBody_cases pad s with hd | ⟨h0, hh, hd⟩ | ⟨x, e, p, hpad, hh, he, hin, _, hd⟩ |
      ⟨_, e, p, k, hpad, _, hk, he, hin, _, hd⟩ <;> rw [hd] at hb
    · cases hb; exact .inr (.atOnce _ (by decide) (by intro h; cases h) rfl)
    · rcases finish_cases s with ⟨hc, hd⟩ | ⟨hc, hd⟩ <;> rw [hd] at hb <;> cases hb
      · exact .inl (.finEmpty (by rw [h0]) hp hh hc rfl)
      · exact .inr (.atOnce _ (by decide) (by intro h; cases h) rfl)
    · rcases finish_cases { walked s (8 - pad.toNat) e p with hold := none } with ⟨hc, hd⟩ | ⟨hc, hd⟩ <;>
        rw [hd] at hb <;> cases hb
      · have : p = [] := hc
        subst this
        exact .inl (.finLast pad x e rfl hp hpad hh he rfl)
      · exact .inr (.trunc pad e p rfl hp hpad he hin rfl)
    · cases hb; exact .inr (.noCode e p k (.inr ⟨pad, rfl⟩) hp (by omega) he hin rfl)

/-- The one stop of the model (log entry 9): LDL where `last` names a symbol without a code. -/
theorem exec_fault {i : Instr} {s : State} {r : Fault} (h : exec i s = .fault r) :
    s.phase = .load ∧ s.mode ≠ .plain ∧ ∃ l, s.last = some l ∧ ctRead s.ct l = none := by
  have key : ∀ {i : Instr} {body : State → Outcome}, guarded i body s = .fault r →
      allowed i s.phase s.mode = true ∧ body s = .fault r := by
    intro i body hg
    rcases guarded_cases i body s with ⟨_, hd⟩ | ⟨_, _, hd⟩ | ⟨_, ha, hd⟩ <;> rw [hd] at hg
    · cases hg
    · cases hg
    · exact ⟨ha, hg⟩
  cases i with
  | nop => cases h
  | clr => cases h
  | cbit b => have := (key h).2; rcases cbitBody_cases b s with hd | ⟨_, hd⟩ <;> rw [hd] at this <;> cases this
  | ldc sym =>
    have := (key h).2; rcases ldcBody_cases sym s with ⟨_, _, hd⟩ | ⟨_, _, _, hd⟩ <;> rw [hd] at this <;> cases this
  | ldl sym len =>
    obtain ⟨ha, hb⟩ := key h
    obtain ⟨hp, hm⟩ : s.phase = .load ∧ s.mode ≠ .plain := by simpa [allowed] using ha
    rcases ldlBody_cases sym len s with ⟨_, _, _, hd⟩ | ⟨l, hl, hn, hd⟩ | ⟨code, _, _, _, hd⟩ <;> rw [hd] at hb
    · cases hb
    · exact ⟨hp, hm, l, hl, hn⟩
    · rcases ldlInsert_cases sym code s with ⟨_, hd⟩ | ⟨_, hd⟩ <;> rw [hd] at hb <;> cases hb
  | sealTable => have := (key h).2; rcases sealBody_cases s with hd | ⟨_, hd⟩ <;> rw [hd] at this <;> cases this
  | push byte =>
    have := (key h).2
    rcases pushBody_cases byte s with ⟨_, hd⟩ | ⟨_, _, _, _, _, _, _, hd⟩ | ⟨_, _, _, _, _, _, _, _, _, hd⟩ <;>
      rw [hd] at this <;> cases this
  | fin pad =>
    have := (key h).2
    rcases finBody_cases pad s with hd | ⟨_, _, hd⟩ | ⟨_, _, _, _, _, _, _, _, hd⟩ |
      ⟨_, _, _, _, _, _, _, _, _, _, hd⟩ <;> rw [hd] at this <;> cases this

/-- No command is refused. -/
theorem exec_not_refused (i : Instr) (s : State) (r : Refusal) : exec i s ≠ .refused r := by
  intro h
  have key : ∀ {i : Instr} {body : State → Outcome}, guarded i body s = .refused r → body s = .refused r := by
    intro i body hg
    rcases guarded_cases i body s with ⟨_, hd⟩ | ⟨_, _, hd⟩ | ⟨_, _, hd⟩ <;> rw [hd] at hg
    · cases hg
    · cases hg
    · exact hg
  cases i with
  | nop => cases h
  | clr => cases h
  | cbit b => have := key h; rcases cbitBody_cases b s with hd | ⟨_, hd⟩ <;> rw [hd] at this <;> cases this
  | ldc sym =>
    have := key h; rcases ldcBody_cases sym s with ⟨_, _, hd⟩ | ⟨_, _, _, hd⟩ <;> rw [hd] at this <;> cases this
  | ldl sym len =>
    have hb := key h
    rcases ldlBody_cases sym len s with ⟨_, _, _, hd⟩ | ⟨l, _, _, hd⟩ | ⟨code, _, _, _, hd⟩ <;> rw [hd] at hb
    · cases hb
    · cases hb
    · rcases ldlInsert_cases sym code s with ⟨_, hd⟩ | ⟨_, hd⟩ <;> rw [hd] at hb <;> cases hb
  | sealTable => have := key h; rcases sealBody_cases s with hd | ⟨_, hd⟩ <;> rw [hd] at this <;> cases this
  | push byte =>
    have := key h
    rcases pushBody_cases byte s with ⟨_, hd⟩ | ⟨_, _, _, _, _, _, _, hd⟩ | ⟨_, _, _, _, _, _, _, _, _, hd⟩ <;>
      rw [hd] at this <;> cases this
  | fin pad =>
    have := key h
    rcases finBody_cases pad s with hd | ⟨_, _, hd⟩ | ⟨_, _, _, _, _, _, _, _, hd⟩ |
      ⟨_, _, _, _, _, _, _, _, _, _, hd⟩ <;> rw [hd] at this <;> cases this

/-- Everything a step can do when it answers a next state: stay idle, perform a command, perform an illegal word, or take a
hardware reset. -/
theorem step_cases {s t : State} (h : step s = .next t) :
    (s.inputs = [] ∧ t = s) ∨
    (∃ w rest i, s.inputs = .command w :: rest ∧ decode w = .ok i ∧ exec i { s with inputs := rest } = .next t) ∨
    (∃ w rest e, s.inputs = .command w :: rest ∧ decode w = .error e ∧ t = illegalWord { s with inputs := rest }) ∨
    (∃ rest, s.inputs = .reset :: rest ∧ t = clear { s with inputs := rest }) ∨
    (∃ w rest, s.inputs = .resetDuring w :: rest ∧ t = abandonWord w { s with inputs := rest }) := by
  unfold step at h
  cases hi : s.inputs with
  | nil => rw [hi] at h; cases h; exact .inl ⟨rfl, rfl⟩
  | cons e rest =>
    rw [hi] at h
    cases e with
    | command w =>
      change performWord w { s with inputs := rest } = .next t at h
      unfold performWord at h
      cases hd : decode w with
      | ok i => rw [hd] at h; exact .inr (.inl ⟨w, rest, i, rfl, hd, h⟩)
      | error e => rw [hd] at h; cases h; exact .inr (.inr (.inl ⟨w, rest, e, rfl, hd, rfl⟩))
    | reset => cases h; exact .inr (.inr (.inr (.inl ⟨rest, rfl, rfl⟩)))
    | resetDuring w => cases h; exact .inr (.inr (.inr (.inr ⟨w, rest, rfl, rfl⟩)))

end Sys2Proof.Machine
end

