-- ==== Sys2Proof/Tests/Slice0.lean ====
section
/-! SUPPORT. Tests: command words written out from the formats of 30_encoding.md R76, one-step checks whose expected values are
those of 95_test_vectors.md (each names its vector), ill-formed lines that `wellFormed` refuses, and for every obligation
with hypotheses a witness that they can hold together. -/

namespace Sys2Proof.Machine

/-! ### Helpers -/

/-- The next state, where there is one. -/
def nextOf (o : Outcome) : Option State :=
  match o with
  | .next s => some s
  | .fault _ => none
  | .refused _ => none

/-- What a check on `nextOf` says of the outcome itself. -/
theorem nextOf_eq_some {o : Outcome} {t : State} : nextOf o = some t ↔ o = .next t := by
  cases o <;> simp [nextOf]

/-- What the lists say of their entries, the tables say of their codes. -/
theorem forall_entries {t : CodeTable} {P : Symbol → Bits → Prop} (h : ∀ e ∈ t, P e.1 e.2) (a : Symbol) (c : Bits)
    (hc : ctRead t a = some c) : P a c := h _ (mem_of_ctRead hc)

theorem validTable_of_entries {t : CodeTable} (h : ∀ e ∈ t, ∀ f ∈ t, e.1 ≠ f.1 → ¬ e.2 <+: f.2)
    (hl : ∀ e ∈ t, 1 ≤ e.2.length ∧ e.2.length ≤ Config.maxLen) : ValidTable t :=
  ⟨fun _ _ _ _ ha hb hne => h _ (mem_of_ctRead ha) _ (mem_of_ctRead hb) hne, forall_entries hl⟩

/-- The table `a = "0"` (V-LDL-1). -/
def zeroTable : CodeTable := [(0x61, [false])]

/-- The table ABC of 95_test_vectors.md: `a = "0"`, `b = "10"`, `c = "11"`. -/
def abcTable : CodeTable := [(0x61, [false]), (0x62, [true, false]), (0x63, [true, true])]

/-- After `LDL 0x61, 1`. -/
def oneLoad : State := { State.reset with mode := .canon, ct := zeroTable, last := some 0x61 }

/-- After `LDL 0x61, 1; SEAL`. -/
def oneRun : State := { oneLoad with phase := .run }

/-- ABC loaded by LDL. -/
def abcLoad : State := { State.reset with mode := .canon, ct := abcTable, last := some 0x63 }

/-- ABC loaded and sealed. -/
def abc : State := { abcLoad with phase := .run }

/-- After `LDCODE 0x61, "0"` and the CBITs of the code given. -/
def staged (code : Bits) : State := { State.reset with mode := .plain, ct := zeroTable, stg := code }

/-- After an illegal word in the reset state (V-ILL-1). -/
def faulted : State := { State.reset with phase := .fault, cause := .illCmd }

/-- After `SEAL; FIN 0` in the reset state (V-FIN-1). -/
def ended : State := { State.reset with phase := .done }

theorem zeroTable_valid : ValidTable zeroTable := validTable_of_entries (by decide) (by decide)

theorem abcTable_valid : ValidTable abcTable := validTable_of_entries (by decide) (by decide)

theorem oneLoad_inv : EngineInv oneLoad :=
  ⟨by decide, zeroTable_valid, by decide, fun _ => ⟨rfl, 0x61, [false], rfl, rfl⟩, by decide, by decide, by decide,
    by decide, by decide, by decide, by decide⟩

theorem oneLoad_canon : CanonInv oneLoad :=
  fun _ => ⟨zeroTable, .refl _, .singleton _, by decide, rfl⟩

theorem abc_inv : EngineInv abc :=
  ⟨by decide, abcTable_valid, by decide, fun _ => ⟨rfl, 0x63, [true, true], rfl, rfl⟩, by decide, by decide, by decide,
    by decide, by decide, by decide, by decide⟩

/-! ### Decoding: words written out from the formats of R76 -/

/-- V-DEC-1, V-DEC-4, V-DEC-14: format Z, `op` at 31:24. -/
theorem test_decode_control :
    decode 0b00000000000000000000000000000000#32 = .ok .nop ∧
    decode 0b00000001000000000000000000000000#32 = .ok .clr ∧
    decode 0b00010011000000000000000000000000#32 = .ok .sealTable := ⟨rfl, rfl, rfl⟩

/-- V-DEC-6, V-DEC-7, V-DEC-9, V-DEC-11, V-DEC-12: format T with `b` at 0, B with `a` at 7:0, P with `sym` at 15:8 and
`len` at 7:0. -/
theorem test_decode_table_load :
    decode 0b00010000000000000000000000000000#32 = .ok (.cbit false) ∧
    decode 0b00010000000000000000000000000001#32 = .ok (.cbit true) ∧
    decode 0b00010001000000000000000001100001#32 = .ok (.ldc 0x61) ∧
    decode 0b00010010000000000110000111111111#32 = .ok (.ldl 0x61 0xFF) ∧
    decode 0b00010010000000000110000100000000#32 = .ok (.ldl 0x61 0x00) := ⟨rfl, rfl, rfl, rfl, rfl⟩

/-- V-DEC-16, V-DEC-18, V-DEC-19: format B. -/
theorem test_decode_payload :
    decode 0b00100000000000000000000011111111#32 = .ok (.push 0xFF) ∧
    decode 0b00100001000000000000000000000111#32 = .ok (.fin 7) ∧
    decode 0b00100001000000000000000011111111#32 = .ok (.fin 255) := ⟨rfl, rfl, rfl⟩

/-- V-DEC-2, 3, 5, 8, 10, 13, 15, 17: a one in a must-be-zero bit. -/
theorem test_decode_must_be_zero :
    decode 0x00000001 = .error .mustBeZeroBit ∧ decode 0x00010000 = .error .mustBeZeroBit ∧
    decode 0x01000001 = .error .mustBeZeroBit ∧ decode 0x10000002 = .error .mustBeZeroBit ∧
    decode 0x11000100 = .error .mustBeZeroBit ∧ decode 0x12010000 = .error .mustBeZeroBit ∧
    decode 0x13000001 = .error .mustBeZeroBit ∧ decode 0x20000100 = .error .mustBeZeroBit :=
  ⟨rfl, rfl, rfl, rfl, rfl, rfl, rfl, rfl⟩

/-- V-DEC-20: the unassigned opcode bytes. -/
theorem test_decode_unassigned :
    decode 0x02000000 = .error .unassignedOpcode ∧ decode 0x14000000 = .error .unassignedOpcode ∧
    decode 0x22000000 = .error .unassignedOpcode ∧ decode 0xFF000000 = .error .unassignedOpcode :=
  ⟨rfl, rfl, rfl, rfl⟩

/-- The host's entry to the decoder, on a word of each family. -/
theorem test_decodeTableWord :
    decodeTableWord 32 0x01000000 = some .clr ∧ decodeTableWord 32 0x120061FF = some (.ldl 0x61 0xFF) ∧
    decodeTableWord 32 0x2000000A = some (.push 0x0A) ∧ decodeTableWord 32 0x14000000 = none := by decide

/-- The words PRG-2 lists for its LDCODE, DATA and END lines. -/
theorem test_assemble_pseudo_commands :
    assemble (.ldcode 0x63 [true, false]) = some [0x10000001, 0x10000000, 0x11000063] ∧
    assemble (.data [0x0F, 0xE0]) = some [0x2000000F, 0x200000E0] ∧ assemble (.endRun 4) = some [0x21000004] := by decide

/-! ### WellFormed: an ill-formed line for each check, refused -/

/-- R86: "a bit other than 0 or 1, a byte, length or padding count above 255" is refused. -/
theorem test_ill_formed_operands :
    (AsmLine.cbit 2).wellFormed = false ∧ (AsmLine.ldc 256).wellFormed = false ∧
    (AsmLine.ldl 256 1).wellFormed = false ∧ (AsmLine.ldl 1 256).wellFormed = false ∧
    (AsmLine.push 256).wellFormed = false ∧ (AsmLine.fin 256).wellFormed = false ∧
    (AsmLine.endRun 256).wellFormed = false ∧ (AsmLine.data [0, 255, 256]).wellFormed = false := by decide

set_option maxRecDepth 8000 in
/-- R87: LDCODE takes a code of 1 to 255 bits, and a symbol that is a byte. -/
theorem test_ill_formed_ldcode :
    (AsmLine.ldcode 256 [true]).wellFormed = false ∧ (AsmLine.ldcode 0 []).wellFormed = false ∧
    (AsmLine.ldcode 0 (List.replicate 256 true)).wellFormed = false := by decide

set_option maxRecDepth 8000 in
/-- R86: `LDL sym, 0` and `FIN 8` are accepted, and a code of 255 bits is. -/
theorem test_well_formed_bounds :
    (AsmLine.ldl 255 0).wellFormed = true ∧ (AsmLine.fin 8).wellFormed = true ∧
    (AsmLine.ldcode 255 (List.replicate 255 true)).wellFormed = true := by decide

/-! ### One step each (95_test_vectors.md) -/

/-- V-NOP-2: `hold = 0x0A` stays, STATUS 0x00030309. -/
theorem test_nop : (nextOf (execNop { abc with hold := some 0x0A })).map (fun t => (t.hold, statusRead t 0)) =
    some (some 0x0A, 0x00030309) := by decide

/-- V-CLR-1: STATUS 0x00000200, and the sink keeps its symbols. -/
theorem test_clr_keeps_output :
    (nextOf (execClr { abc with hold := some 0x80, nbits := 8, nsyms := 2, out := [0x62, 0x61] })).map
      (fun t => (t.out, statusRead t 0)) = some ([0x62, 0x61], 0x00000200) := by decide

/-- R102: CLR is the way out of a fault. -/
theorem test_clr_leaves_fault : (nextOf (execClr faulted)).map State.phase = some .load := by decide

/-- R111's example: `stg = "1"`, `CBIT 0` gives `stg = "10"`. -/
theorem test_cbit_appends : (nextOf (execCbit false (staged [true]))).map State.stg = some [true, false] := by decide

set_option maxRecDepth 8000 in
/-- V-CBIT-3: the 256th bit raises TBL_LEN; LENS 0x000000FF. -/
theorem test_cbit_full :
    (nextOf (execCbit true (staged (List.replicate 255 true)))).map (fun t => (t.cause, statusRead t 1)) =
      some (.tblLen, 0x000000FF) := by decide

/-- V-LDC-2: `CT = {a = "0"}`, STATUS 0x00010204. -/
theorem test_ldc_loads :
    (nextOf (execLdc 0x61 { State.reset with mode := .plain, stg := [false] })).map (fun t => (t.ct, statusRead t 0)) =
      some (zeroTable, 0x00010204) := by decide

/-- V-LDC-4: TBL_PREFIX, and `stg = "01"` stays. -/
theorem test_ldc_prefix :
    (nextOf (execLdc 0x62 (staged [false, true]))).map (fun t => (t.cause, t.stg)) =
      some (.tblPrefix, [false, true]) := by decide

/-- V-LDL-4: a growth by two appends two zeros: `b = "100"`. -/
theorem test_ldl_extends :
    (nextOf (execLdl 0x62 3 oneLoad)).map (fun t => ctRead t.ct 0x62) = some (some [true, false, false]) := by decide

/-- V-LDL-12: after "11" the code space is used up: TBL_OVER, STATUS 0x00030A8B. -/
theorem test_ldl_overflow : (nextOf (execLdl 0x64 2 abcLoad)).map (fun t => statusRead t 0) = some 0x00030A8B := by decide

/-- V-SEAL-1: STATUS 0x00010209, LENS 0x61010000. -/
theorem test_seal : (nextOf (execSeal oneLoad)).map (fun t => (statusRead t 0, statusRead t 1)) =
    some (0x00010209, 0x61010000) := by decide

/-- V-SEAL-3: staged bits left over: SEQ, `stg = "1"` kept, LENS 0x00000001. -/
theorem test_seal_staged : (nextOf (execSeal (staged [true]))).map (fun t => (t.cause, statusRead t 1)) =
    some (.seq, 0x00000001) := by decide

/-- V-PUSH-2: 0x0A is released as `a a a a b b`; `nbits` 8, `nsyms` 6. -/
theorem test_push_releases :
    (nextOf (execPush 0xB0 { abc with hold := some 0x0A })).map (fun t => (t.out, t.nbits, t.nsyms, t.hold)) =
      some ([0x61, 0x61, 0x61, 0x61, 0x62, 0x62], 8, 6, some 0xB0) := by decide

/-- V-FLT-3: bit 2 of 0x20 has no node: DEC_NOCODE, 0x20 kept, STATUS 0x00010BAB. -/
theorem test_push_nocode :
    (nextOf (execPush 0x00 { oneRun with hold := some 0x20 })).map (fun t => (t.out, t.nbits, t.hold, statusRead t 0)) =
      some ([0x61, 0x61], 2, some 0x20, 0x00010BAB) := by decide

/-- V-FIN-5: `1011` is `b c`, `nbits` 4; DONE, STATUS 0x0003060A. -/
theorem test_fin_done :
    (nextOf (execFin 4 { abc with hold := some 0xB0 })).map (fun t => (t.out, t.nbits, statusRead t 0)) =
      some ([0x62, 0x63], 4, 0x0003060A) := by decide

/-- V-FIN-7: one bit, then DEC_TRUNC with `cur = "1"`; STATUS 0x000308BB, LENS 0x63020100. -/
theorem test_fin_truncated :
    (nextOf (execFin 7 { abc with hold := some 0xB0 })).map (fun t => (statusRead t 0, statusRead t 1)) =
      some (0x000308BB, 0x63020100) := by decide

/-- V-LDL-1 as the first instruction after reset: STATUS 0x00010208. -/
theorem test_step_fetches : (nextOf (step (State.reset.withFetchWord 32 0x12006101))).map (fun t => statusRead t 0) =
    some 0x00010208 := by decide

/-- V-FLT-1: in phase FAULT the illegal word 0x01000001 is dropped. -/
theorem test_step_drops : nextOf (step (faulted.withFetchWord 32 0x01000001)) = some faulted := by decide

/-! ### Witnesses: for each obligation, a state and operands that meet its hypotheses together -/

theorem test_wit_DecodeOfEncodeIsTheCommand :
    (Instr.ldl 0xFF 0xFF).wellFormed = true ∧ (Instr.cbit true).wellFormed = true := by decide

theorem test_wit_EncodeOfDecodeIsTheWord : decode 0x1200FFFF = .ok (.ldl 0xFF 0xFF) := rfl

theorem test_wit_DecodeAgreesWithOpcodeMap :
    (⟨"FIN", 0xFFFFFF00, 0x21000000⟩ : OpRow) ∈ opcodeMap ∧ (0x210000FF : Word) &&& 0xFFFFFF00 = 0x21000000 ∧
    ∀ r ∈ opcodeMap, (0x21000100 : Word) &&& r.mask ≠ r.pattern := by decide

theorem test_wit_StepRunsTheDecodedCommand :
    (offerWord 0x2000000A abc).inputs = .command 0x2000000A :: [] ∧ decode 0x2000000A = .ok (.push 0x0A) ∧
    State.reset.inputs = [] := ⟨rfl, rfl, rfl⟩

theorem test_wit_IllegalWordRaisesIllcmd :
    (offerWord 0x00000001 ended).inputs = .command 0x00000001 :: [] ∧
    (∀ r ∈ opcodeMap, (0x00000001 : Word) &&& r.mask ≠ r.pattern) ∧ (offerWord 0x00000001 ended).phase ≠ .fault := by decide

theorem test_wit_FaultPhaseDropsEveryWordButClr :
    (offerWord 0x01000001 faulted).inputs = .command 0x01000001 :: [] ∧ faulted.phase = .fault ∧
    (0x01000001 : Word) ≠ 0x01000000 := by decide

/-- One clause each: by the phase (RUN, DONE), and by the mode. -/
theorem test_wit_DisallowedCommandRaisesSeq :
    (abc.phase ≠ .fault ∧ abc.phase ≠ .load) ∧ (ended.phase ≠ .fault ∧ ended.phase ≠ .run) ∧
    (oneLoad.phase ≠ .fault ∧ oneLoad.mode = .canon ∧ oneLoad.phase ≠ .run) ∧
    ((staged []).phase ≠ .fault ∧ (staged []).mode = .plain) := by decide

theorem test_wit_NopChangesNothing : abc.phase ≠ .fault ∧ ended.phase ≠ .fault := by decide

theorem test_wit_ClrGivesTheResetState : faulted.phase = .fault ∧ Instr.fin 0 ≠ .clr := by decide

theorem test_wit_SealOpensTheRun :
    (State.reset.phase = .load ∧ State.reset.stg = []) ∧ ((staged [true]).phase = .load ∧ (staged [true]).stg ≠ []) := by
  decide

set_option maxRecDepth 8000 in
/-- At 254 bits the bit is taken, at 255 it is not. -/
theorem test_wit_CbitStagesItsBit :
    ((staged (List.replicate 254 true)).phase = .load ∧ (staged (List.replicate 254 true)).mode ≠ .canon ∧
      (staged (List.replicate 254 true)).stg.length ≠ 255) ∧
    (staged (List.replicate 255 true)).stg.length = 255 := by decide

theorem test_wit_LdcLoadsTheStagedCode :
    (staged [true, false]).phase = .load ∧ (staged [true, false]).mode ≠ .canon ∧ (staged [true, false]).stg ≠ [] ∧
    ctRead (staged [true, false]).ct 0x62 = none ∧
    ∀ a c, ctRead (staged [true, false]).ct a = some c → ¬ c <+: [true, false] ∧ ¬ [true, false] <+: c :=
  ⟨rfl, by decide, by decide, rfl, forall_entries (by decide)⟩

/-- One clause each: no bit staged, a symbol that has a code, a code that lies under another. -/
theorem test_wit_LdcFaultsInOrder :
    ((staged []).phase = .load ∧ (staged []).mode ≠ .canon ∧ (staged []).stg = []) ∧
    ((staged [true]).stg ≠ [] ∧ ctRead (staged [true]).ct 0x61 ≠ none) ∧
    ((staged [false, true]).stg ≠ [] ∧ ctRead (staged [false, true]).ct 0x62 = none ∧
      ctRead (staged [false, true]).ct 0x61 = some [false] ∧ [false] <+: (staged [false, true]).stg) := by decide

theorem test_wit_FirstLdlGivesZeros :
    State.reset.phase = .load ∧ State.reset.mode = .none ∧ State.reset.last = none ∧
    (∀ a, ctRead State.reset.ct a = none) ∧ (1 : BitVec 8) ≠ 0 ∧ (255 : BitVec 8) ≠ 0 :=
  ⟨rfl, rfl, rfl, fun _ => rfl, by decide, by decide⟩

/-- Both ways to be in order: a greater length (255, the greatest), and the same length with a greater symbol. -/
theorem test_wit_LdlGivesTheNextCanonicalCode :
    EngineInv oneLoad ∧ CanonInv oneLoad ∧ oneLoad.phase = .load ∧ oneLoad.mode = .canon ∧ oneLoad.last = some 0x61 ∧
    ctRead oneLoad.ct 0x61 = some [false] ∧ ctRead oneLoad.ct 0x62 = none ∧
    ([false].length < (255 : BitVec 8).toNat) ∧
    ((1 : BitVec 8).toNat = [false].length ∧ (0x61 : Symbol).toNat < (0x62 : Symbol).toNat) ∧
    val [false] + 1 < 2 ^ [false].length :=
  ⟨oneLoad_inv, oneLoad_canon, rfl, rfl, rfl, rfl, rfl, by decide, by decide, by decide⟩

/-- One clause each: length 0, a duplicate, a lower length, a lower symbol, and after an all-ones code (same symbol order,
and a greater length). -/
theorem test_wit_LdlFaultsInOrder :
    (abcLoad.phase = .load ∧ abcLoad.mode ≠ .plain ∧ ctRead abcLoad.ct 0x61 ≠ none) ∧
    (ctRead abcLoad.ct 0x60 = none ∧ abcLoad.last = some 0x63 ∧ ctRead abcLoad.ct 0x63 = some [true, true] ∧
      (1 : BitVec 8).toNat < [true, true].length ∧
      ((2 : BitVec 8).toNat = [true, true].length ∧ (0x60 : Symbol).toNat < (0x63 : Symbol).toNat)) ∧
    (ctRead abcLoad.ct 0x64 = none ∧ ((2 : BitVec 8).toNat = [true, true].length ∧
      (0x63 : Symbol).toNat ≤ (0x64 : Symbol).toNat) ∧ [true, true].length < (3 : BitVec 8).toNat ∧
      val [true, true] + 1 = 2 ^ [true, true].length) := by decide

/-- One clause each; no run reaches these states. -/
theorem test_wit_LdlOutsideTheInvariants :
    (oneLoad.phase = .load ∧ oneLoad.mode ≠ .plain ∧ (1 : BitVec 8) ≠ 0 ∧
      ctRead { oneLoad with last := some 0x70 }.ct 0x62 = none ∧ ctRead { oneLoad with last := some 0x70 }.ct 0x70 = none) ∧
    ({ oneLoad with last := none }.last = none ∧ conflicts zeroTable (zeros 1) = true) := by decide

theorem test_wit_LdlNeverRaisesTblPrefix :
    EngineInv oneLoad ∧ CanonInv oneLoad ∧ oneLoad.phase ≠ .fault ∧
    exec (.ldl 0x62 0) oneLoad = .next { oneLoad with phase := .fault, cause := .tblZeroLen } :=
  ⟨oneLoad_inv, oneLoad_canon, by decide, rfl⟩

theorem test_wit_ConflictsDecidesPrefixFreedom :
    PrefixFree abcTable ∧ ctRead abcTable 0x64 = none ∧ ([true] : Bits) ≠ [] := ⟨abcTable_valid.1, rfl, by decide⟩

theorem test_wit_TableCommandFaultWritesNothing :
    (staged [false]).phase ≠ .fault ∧
    nextOf (exec (.ldc 0x61) (staged [false])) = some { staged [false] with phase := .fault, cause := .tblDup } := by decide

theorem test_wit_TableEntryIsWrittenOnce :
    nextOf (step (offerWord 0x11000062 (staged [true]))) ≠ none ∧ nextEndsRun (offerWord 0x11000062 (staged [true])) = false ∧
    ctRead (staged [true]).ct 0x61 = some [false] := by decide

/-- Both clauses: a step in phase RUN, and the phases RUN and DONE. -/
theorem test_wit_TableIsFixedAfterSeal :
    nextOf (step (offerWord 0x2000000A abc)) ≠ none ∧ nextEndsRun (offerWord 0x2000000A abc) = false ∧
    (offerWord 0x2000000A abc).phase ≠ .load ∧ abc.phase = .run ∧ ended.phase = .done := by decide

/-- Both clauses: a mode that is set, and a command that faults. -/
theorem test_wit_ModeIsFixedOnceSet :
    nextEndsRun (offerWord 0x11000061 State.reset) = false ∧ oneLoad.mode ≠ .none ∧
    nextOf (step (offerWord 0x11000061 State.reset)) =
      some { State.reset with phase := .fault, cause := .tblZeroLen } ∧ State.reset.phase ≠ .fault := by decide

/-- The entries of PRG-2, in an order that is not the symbols'. -/
theorem test_wit_LdcodeLinesLoadAnyPlainTable :
    State.reset.phase = .load ∧ State.reset.mode ≠ .canon ∧ State.reset.stg = [] ∧ (∀ a, ctRead State.reset.ct a = none) ∧
    (∀ e ∈ [((0x63 : Symbol), [true, false]), (0x61, [false]), (0x62, [true, true])], 1 ≤ e.2.length ∧ e.2.length ≤ 255) ∧
    [((0x63 : Symbol), [true, false]), (0x61, [false]), (0x62, [true, true])].Pairwise
      (fun e f => e.1 ≠ f.1 ∧ ¬ e.2 <+: f.2 ∧ ¬ f.2 <+: e.2) :=
  ⟨rfl, by decide, rfl, fun _ => rfl, by decide, by decide⟩

/-- V-BS-5, V-BS-3, V-BS-2: a bit off the trie, at a leaf, at an inner node. -/
theorem test_wit_BitStepFollowsTheTrie :
    (PrefixFree oneRun.ct ∧ ∀ a c, ctRead oneRun.ct a = some c → ¬ oneRun.cur ++ [true] <+: c) ∧
    (PrefixFree abc.ct ∧ ctRead abc.ct 0x62 = some ({ abc with cur := [true] }.cur ++ [false])) ∧
    (ctRead abc.ct 0x62 = some [true, false] ∧ abc.cur ++ [true] <+: [true, false] ∧
      abc.cur ++ [true] ≠ [true, false]) :=
  ⟨⟨zeroTable_valid.1, forall_entries (by decide)⟩, ⟨abcTable_valid.1, rfl⟩, rfl, by decide, by decide⟩

theorem test_wit_LeavesEndTheirPaths : ValidTable abcTable ∧ isLeaf abcTable [true, false] = true :=
  ⟨abcTable_valid, by decide⟩

/-- With `k` at both ends of its range. -/
theorem test_wit_CodeWordEmitsItsSymbol :
    PrefixFree abc.ct ∧ abc.cur = [] ∧ ctRead abc.ct 0x62 = some [true, false] ∧ ([true, false] : Bits) ≠ [] ∧
    0 < [true, false].length ∧ 1 < [true, false].length := ⟨abcTable_valid.1, rfl, rfl, by decide, by decide, by decide⟩

theorem test_wit_GreedyWalkEndsInOneOfThreeWays : ValidTable abc.ct ∧ abc.cur = [] := ⟨abcTable_valid, rfl⟩

theorem test_wit_ParseIsUnique :
    ValidTable abcTable ∧ spell abcTable [0x62] = some [true, false] ∧ atInner abcTable [true] = true :=
  ⟨abcTable_valid, by decide, by decide⟩

/-- V-PUSH-1; V-PUSH-2 (the walker ends at the root) and V-PUSH-4 (at `"1"`). -/
theorem test_wit_PushReleasesTheHeldByte :
    (abc.phase = .run ∧ abc.hold = none) ∧ ValidTable abc.ct ∧ atInner abc.ct abc.cur = true ∧
    (spell abc.ct [0x61, 0x61, 0x61, 0x61, 0x62, 0x62] =
        some [false, false, false, false, true, false, true, false] ∧ atInner abc.ct [] = true ∧
      abc.cur ++ streamBits 0x0A = [false, false, false, false, true, false, true, false] ++ []) ∧
    (spell abc.ct [0x61, 0x61, 0x61, 0x61, 0x61, 0x61, 0x61] = some [false, false, false, false, false, false, false] ∧
      atInner abc.ct [true] = true ∧
      abc.cur ++ streamBits 0x01 = [false, false, false, false, false, false, false] ++ [true]) :=
  ⟨by decide, abcTable_valid, by decide, by decide, by decide⟩

/-- V-FLT-3 (`k = 2`), and `k` at both ends of its range. -/
theorem test_wit_PushFaultsWhereABitHasNoNode :
    oneRun.phase = .run ∧ ValidTable oneRun.ct ∧ atInner oneRun.ct oneRun.cur = true ∧ atInner oneRun.ct [] = true ∧
    isNode oneRun.ct ([] ++ [true]) = false ∧
    (spell oneRun.ct [0x61, 0x61] = some [false, false] ∧
      oneRun.cur ++ (streamBits 0x20).take 2 = [false, false] ++ [] ∧ streamBit 0x20 2 = true) ∧
    (spell oneRun.ct [] = some [] ∧ oneRun.cur ++ (streamBits 0x80).take 0 = [] ++ [] ∧ streamBit 0x80 0 = true) ∧
    (spell oneRun.ct (List.replicate 7 0x61) = some (List.replicate 7 false) ∧
      oneRun.cur ++ (streamBits 0x01).take 7 = List.replicate 7 false ++ [] ∧ streamBit 0x01 7 = true) :=
  ⟨rfl, zeroTable_valid, by decide, by decide, by decide, by decide, by decide, by decide⟩

/-- V-FIN-4 (pad 0), V-FIN-7 (pad 7, ending inside a code word). -/
theorem test_wit_FinDecodesTheMeaningfulBits :
    abc.phase = .run ∧ ValidTable abc.ct ∧ { abc with hold := some 0xB0 }.hold = some 0xB0 ∧
    atInner abc.ct abc.cur = true ∧ (0 : BitVec 8).toNat ≤ 7 ∧ (7 : BitVec 8).toNat ≤ 7 ∧
    (spell abc.ct [0x62, 0x63, 0x61, 0x61, 0x61, 0x61] = some [true, false, true, true, false, false, false, false] ∧
      atInner abc.ct [] = true ∧
      abc.cur ++ (streamBits 0xB0).take 8 = [true, false, true, true, false, false, false, false] ++ []) ∧
    (spell abc.ct [] = some [] ∧ atInner abc.ct [true] = true ∧ abc.cur ++ (streamBits 0xB0).take 1 = [] ++ [true]) :=
  ⟨rfl, abcTable_valid, rfl, by decide, by decide, by decide, by decide, by decide⟩

/-- PRG-4's FIN (`k = 3`, pad 0), and `k` at its greatest (pad 4, the last meaningful bit). -/
theorem test_wit_FinFaultsWhereABitHasNoNode :
    oneRun.phase = .run ∧ ValidTable oneRun.ct ∧ { oneRun with hold := some 0x10 }.hold = some 0x10 ∧
    atInner oneRun.ct oneRun.cur = true ∧ (0 : BitVec 8).toNat ≤ 7 ∧ 3 < 8 - (0 : BitVec 8).toNat ∧
    (4 : BitVec 8).toNat ≤ 7 ∧ 3 < 8 - (4 : BitVec 8).toNat ∧
    spell oneRun.ct [0x61, 0x61, 0x61] = some [false, false, false] ∧ atInner oneRun.ct [] = true ∧
    oneRun.cur ++ (streamBits 0x10).take 3 = [false, false, false] ++ [] ∧
    isNode oneRun.ct ([] ++ [streamBit 0x10 3]) = false :=
  ⟨rfl, zeroTable_valid, rfl, by decide, by decide, by decide, by decide, by decide, by decide, by decide, by decide,
    by decide⟩

/-- V-FIN-1, V-FIN-2, V-FIN-3. -/
theorem test_wit_FinWithoutByteAndPadFaults :
    (abc.phase = .run ∧ abc.hold = none ∧ abc.cur = []) ∧ (1 : BitVec 8) ≠ 0 ∧ 7 < (8 : BitVec 8).toNat := by decide

/-- V-FIN-6 beside V-FIN-5. -/
theorem test_wit_PaddingBitsHaveNoEffect :
    abc.phase = .run ∧ { abc with hold := some 0xB0 }.hold = some 0xB0 ∧ (4 : BitVec 8).toNat ≤ 7 ∧
    (streamBits 0xB0).take (8 - (4 : BitVec 8).toNat) = (streamBits 0xBF).take (8 - (4 : BitVec 8).toNat) ∧
    nextOf (exec (.fin 4) { abc with hold := some 0xB0 }) ≠ none := by decide

/-- V-PUSH-1 and V-PUSH-2. -/
theorem test_wit_PushesHoldTheLastByte :
    abc.phase = .run ∧ abc.hold = none ∧
    (nextOf (runWords (([] ++ [0x0A]).map fun x => encode (.push x)) abc)).map State.phase = some .run ∧
    (nextOf (runWords (([0x0A] ++ [0xB0]).map fun x => encode (.push x)) abc)).map State.phase = some .run := by decide

/-- PRG-1's payload, and the empty one. -/
theorem test_wit_PackedPayloadRoundTrips :
    abc.phase = .run ∧ ValidTable abc.ct ∧ abc.hold = none ∧ abc.cur = [] ∧
    (spell abc.ct [0x61, 0x61, 0x61, 0x61, 0x62, 0x62, 0x62, 0x63] =
        some [false, false, false, false, true, false, true, false, true, false, true, true] ∧
      [false, false, false, false].length ≤ 7 ∧
      (([0x0A, 0xB0] : List Byte).map streamBits).flatten =
        [false, false, false, false, true, false, true, false, true, false, true, true] ++ [false, false, false, false]) ∧
    (spell abc.ct [] = some [] ∧ (([] : List Byte).map streamBits).flatten = [] ++ []) :=
  ⟨rfl, abcTable_valid, rfl, rfl, by decide, by decide⟩

theorem test_wit_StepKeepsTheInvariants :
    EngineInv abc ∧ step abc = .next abc ∧ EngineInv (offerWord 0x2000000A abc) ∧
    nextOf (step (offerWord 0x2000000A abc)) = some { abc with hold := some 0x0A } :=
  ⟨abc_inv, rfl, ⟨abc_inv.1, abc_inv.2, abc_inv.3, abc_inv.4, abc_inv.5, abc_inv.6, abc_inv.7, abc_inv.8, abc_inv.9,
    abc_inv.10, abc_inv.11⟩, by decide⟩

theorem test_wit_StepKeepsCanonicalOrder :
    EngineInv oneLoad ∧ CanonInv oneLoad ∧ oneLoad.mode = .canon ∧ step oneLoad = .next oneLoad :=
  ⟨oneLoad_inv, oneLoad_canon, rfl, rfl⟩

/-- Both clauses: a step in RUN with 8 bits consumed, and a FIN that ends the run. -/
theorem test_wit_RunConsumesWholeBytes :
    EngineInv abc ∧ (abc.phase = .run ∧ { abc with nbits := 8 }.nbits.toNat % 8 = 0 ∧ step abc = .next abc) ∧
    nextOf (exec (.fin 4) { abc with hold := some 0xB0, nbits := 8 }) =
      some { abc with phase := .done, nbits := 12, nsyms := 2, out := [0x62, 0x63] } :=
  ⟨abc_inv, ⟨rfl, by decide, rfl⟩, by decide⟩

theorem test_wit_StepNeverStops : EngineInv oneLoad ∧ EngineInv abc := ⟨oneLoad_inv, abc_inv⟩

/-- One step for each of the four moves. -/
theorem test_wit_PhaseMovesAreTheLegalOnes :
    (nextOf (step (offerWord 0x13000000 State.reset))).map State.phase = some .run ∧
    (nextOf (step (offerWord 0x21000000 abc))).map State.phase = some .done ∧
    (nextOf (step (offerWord 0x14000000 abc))).map State.phase = some .fault ∧
    (nextOf (step (offerWord 0x01000000 faulted))).map State.phase = some .load := by decide

/-- Both clauses: FAULT stays, DONE stays or faults. -/
theorem test_wit_EndedRunStaysEnded :
    (nextOf (step (offerWord 0x14000000 faulted)) ≠ none ∧ nextEndsRun (offerWord 0x14000000 faulted) = false ∧
      faulted.phase = .fault) ∧
    (nextOf (step (offerWord 0x20000000 ended)) ≠ none ∧ nextEndsRun (offerWord 0x20000000 ended) = false ∧
      ended.phase = .done) := by decide

theorem test_wit_OutputOnlyGrowsByAtMostEight :
    nextOf (step (offerWord 0x20000000 { oneRun with hold := some 0x00 })) ≠ none := by decide

theorem test_wit_CountersFollowBitsAndSymbols :
    Instr.push 0x00 ≠ .clr ∧ nextOf (exec (.push 0x00) { oneRun with hold := some 0x00 }) ≠ none ∧
    Instr.nop ≠ .clr ∧ nextOf (exec .nop oneRun) ≠ none := by decide

/-- One next state for each table command and SEAL. -/
theorem test_wit_TableCommandsFrame :
    nextOf (exec (.cbit true) State.reset) ≠ none ∧ nextOf (exec (.ldc 0x62) (staged [true])) ≠ none ∧
    nextOf (exec (.ldl 0x62 2) oneLoad) ≠ none ∧ nextOf (exec .sealTable oneLoad) ≠ none := by decide

theorem test_wit_PayloadCommandsFrame :
    nextOf (exec (.push 0x0A) abc) ≠ none ∧ nextOf (exec (.fin 0) abc) ≠ none := by decide

/-- Both cases: no canonical entry, and one. -/
theorem test_wit_LensWordHasItsFields :
    EngineInv abc ∧ abc.last = some 0x63 ∧ ctRead abc.ct 0x63 = some [true, true] ∧ State.reset.last = none :=
  ⟨abc_inv, rfl, rfl, rfl⟩

theorem test_wit_HardwareResetActsAsClr :
    { abc with inputs := [HostInput.reset] }.inputs = HostInput.reset :: [] := by decide

/-- A reset inside the PUSH that would release `a a a a b b`. -/
theorem test_wit_ResetInsideACommandAbandonsIt :
    { abc with inputs := [HostInput.resetDuring 0x200000B0] }.inputs = HostInput.resetDuring 0x200000B0 :: [] ∧
    nextOf (step { abc with hold := some 0x0A, inputs := [.command 0x200000B0] }) ≠ none := by decide

end Sys2Proof.Machine
end

section
/-! PROOFS. What commands and steps append to the sink's record (spec 00_scope.md R6, 10_state.md R33, 43_tree_walk.md R162). -/

namespace Sys2Proof.Machine

/-- `t` has the sink's record of `s` with at most `n` symbols more behind it. -/
def AppendsUpTo (n : Nat) (s t : State) : Prop := ∃ e, t.out = s.out ++ e ∧ e.length ≤ n

theorem AppendsUpTo.of_out_eq {n : Nat} {s t : State} (h : t.out = s.out) : AppendsUpTo n s t :=
  ⟨[], by simp [h]⟩

/-- The host's inputs have no part in the record. -/
theorem AppendsUpTo.of_inputs {n : Nat} {s t : State} {l : List HostInput}
    (h : AppendsUpTo n { s with inputs := l } t) : AppendsUpTo n s t := h

theorem AppendsUpTo.length_drop_le {n : Nat} {s t : State} (h : AppendsUpTo n s t) :
    (t.out.drop s.out.length).length ≤ n := by
  obtain ⟨e, he, hl⟩ := h
  rw [he, List.drop_left]
  exact hl

/-- Only a PUSH with a byte held and a FIN emit, and each feeds at most the 8 bits of one byte. -/
theorem Performed.appendsUpTo_eight {i : Instr} {s t : State} (h : Performed i s t) : AppendsUpTo 8 s t := by
  cases h with
  | cbit _ _ _ _ _ ht | ldc _ _ _ _ _ _ _ ht | ldl _ _ _ _ _ _ _ _ _ _ ht | sealTable _ _ _ ht
  | pushFirst _ _ _ _ ht | finEmpty _ _ _ _ ht => exact .of_out_eq (by simp [ht])
  | pushNext _ _ e _ _ _ _ he _ ht => exact ⟨e, congrArg State.out ht, he⟩
  | finLast _ _ e _ _ _ _ he ht => exact ⟨e, congrArg State.out ht, by omega⟩

/-- The symbols emitted before the fault stand, at most one for each bit fed. -/
theorem Faulted.appendsUpTo_eight {i : Instr} {s t : State} (h : Faulted i s t) : AppendsUpTo 8 s t := by
  cases h with
  | atOnce _ _ _ ht => exact .of_out_eq (by simp [ht])
  | noCode e _ _ _ _ _ _ _ ht => exact ⟨e, congrArg State.out ht, by omega⟩
  | trunc _ e _ _ _ _ he _ ht => exact ⟨e, congrArg State.out ht, by omega⟩

theorem exec_appendsUpTo_eight {i : Instr} {s t : State} (h : exec i s = .next t) : AppendsUpTo 8 s t := by
  rcases exec_cases h with ⟨rfl, _⟩ | ⟨_, rfl⟩ | ⟨_, hp | hf⟩
  · exact .of_out_eq rfl
  · exact .of_out_eq rfl
  · exact hp.appendsUpTo_eight
  · exact hf.appendsUpTo_eight

@[simp] theorem illegalWord_out (s : State) : (illegalWord s).out = s.out := by
  unfold illegalWord
  split <;> rfl

theorem performWord_appendsUpTo_eight {w : Word} {s t : State} (h : performWord w s = .next t) :
    AppendsUpTo 8 s t := by
  unfold performWord at h
  cases hd : decode w with
  | ok i => rw [hd] at h; exact exec_appendsUpTo_eight h
  | error _ => rw [hd] at h; cases h; exact .of_out_eq (illegalWord_out s)

theorem length_emissions_le_eight (w : Word) (s : State) : (emissions w s).length ≤ 8 := by
  unfold emissions
  cases h : performWord w s with
  | next t => exact (performWord_appendsUpTo_eight h).length_drop_le
  | fault _ => exact Nat.zero_le 8
  | refused _ => exact Nat.zero_le 8

/-- What got out before the reset is a prefix of the abandoned command's emissions (R210). -/
theorem abandonWord_appendsUpTo_eight (w : Word) (s : State) : AppendsUpTo 8 s (abandonWord w s) :=
  ⟨(emissions w s).take (Config.resetCut s.resets), rfl,
    (List.length_take_le' _ _).trans (length_emissions_le_eight w s)⟩

/-- Settles O48, input by input: of a step's cases only a command and a command cut short by a reset can emit. -/
theorem outputOnlyGrowsByAtMostEight : Obligations.OutputOnlyGrowsByAtMostEight := by
  intro s t h
  rcases step_cases h with ⟨_, rfl⟩ | ⟨_, _, _, _, _, hx⟩ | ⟨_, rest, _, _, _, rfl⟩ | ⟨rest, _, rfl⟩ |
    ⟨w, rest, _, rfl⟩
  · exact AppendsUpTo.of_out_eq rfl
  · exact (exec_appendsUpTo_eight hx).of_inputs
  · exact AppendsUpTo.of_out_eq (illegalWord_out { s with inputs := rest })
  · exact AppendsUpTo.of_out_eq (clear_out { s with inputs := rest })
  · exact (abandonWord_appendsUpTo_eight w { s with inputs := rest }).of_inputs

end Sys2Proof.Machine
end

section
/-! PROOFS. Everything a step can do to the engine, in terms of the effects of its command (spec 00_scope.md R5, R6,
40_control.md R100, 70_reset_and_hazards.md R211); and the frame of each effect. -/

namespace Sys2Proof

/-- The row of the opcode map that a decoded word was read by (30_encoding.md R78, R79). -/
theorem decode_cases {w : Word} {i : Instr} (h : decode w = .ok i) :
    (i = .nop ∧ w = 0x00000000) ∨ (i = .clr ∧ w = 0x01000000) ∨
    (i = .cbit (fieldB w) ∧ w &&& 0xFFFFFFFE = 0x10000000) ∨ (i = .ldc (fieldA w) ∧ w &&& 0xFFFFFF00 = 0x11000000) ∨
    (i = .ldl (fieldSym w) (fieldA w) ∧ w &&& 0xFFFF0000 = 0x12000000) ∨ (i = .sealTable ∧ w = 0x13000000) ∨
    (i = .push (fieldA w) ∧ w &&& 0xFFFFFF00 = 0x20000000) ∨
    (i = .fin (fieldA w) ∧ w &&& 0xFFFFFF00 = 0x21000000) := by
  unfold decode at h
  split_ifs at h with h0 h1 h2 h3 h4 h5 h6 h7 <;> cases h
  · exact .inl ⟨rfl, h0⟩
  · exact .inr (.inl ⟨rfl, h1⟩)
  · exact .inr (.inr (.inl ⟨rfl, h2⟩))
  · exact .inr (.inr (.inr (.inl ⟨rfl, h3⟩)))
  · exact .inr (.inr (.inr (.inr (.inl ⟨rfl, h4⟩))))
  · exact .inr (.inr (.inr (.inr (.inr (.inl ⟨rfl, h5⟩)))))
  · exact .inr (.inr (.inr (.inr (.inr (.inr (.inl ⟨rfl, h6⟩))))))
  · exact .inr (.inr (.inr (.inr (.inr (.inr (.inr ⟨rfl, h7⟩))))))

theorem eq_of_decode_clr {w : Word} (h : decode w = .ok .clr) : w = 0x01000000 := by
  simpa using decode_cases h

theorem eq_of_decode_sealTable {w : Word} (h : decode w = .ok .sealTable) : w = 0x13000000 := by
  simpa using decode_cases h

/-- A word of format B is its opcode byte and its operand (R76). -/
theorem eq_place_of_formatB {w : Word} {op : BitVec 8} (h : w &&& 0xFFFFFF00 = place op 24) :
    w = place op 24 ||| place (fieldA w) 0 := by
  ext i hi
  rw [← BitVec.getLsbD_eq_getElem, ← BitVec.getLsbD_eq_getElem, BitVec.getLsbD_or, getLsbD_place _ 0, getLsbD_fieldA]
  by_cases h8 : i < 8
  · rw [getLsbD_place]
    simp [hi, h8, show ¬ 24 ≤ i by omega]
  · have h8' : 8 ≤ i := Nat.le_of_not_lt h8
    have hm : (0xFFFFFF00 : Word).getLsbD i = true := by interval_cases i <;> rfl
    simp [getLsbD_of_masked h hm, h8]

theorem eq_encode_of_decode_fin {w : Word} {pad : BitVec 8} (h : decode w = .ok (.fin pad)) :
    w = encode (.fin pad) := by
  obtain ⟨rfl, hw⟩ : pad = fieldA w ∧ w &&& 0xFFFFFF00 = 0x21000000 := by simpa using decode_cases h
  exact eq_place_of_formatB (hw.trans (by decide))

end Sys2Proof

namespace Sys2Proof.Machine

/-- What a step that answers a next state did to the engine. -/
inductive StepEffect (s t : State) : Prop where
  /-- Idle, NOP, or a word dropped in phase FAULT. -/
  | kept (rest : List HostInput) (ht : t = { s with inputs := rest })
  /-- CLR or a hardware reset. -/
  | restarted (out : List Symbol) (rest : List HostInput) (n : Nat) (he : nextEndsRun s = true)
      (ht : t = { State.reset with out := out, inputs := rest, resets := n })
  /-- A word that does not decode. -/
  | illegal (rest : List HostInput) (hp : s.phase ≠ .fault) (ht : t = raise .illCmd { s with inputs := rest })
  | performed (w : Word) (rest : List HostInput) (i : Instr) (hi : s.inputs = .command w :: rest)
      (hd : decode w = .ok i) (h : Performed i { s with inputs := rest } t)
  | faulted (w : Word) (rest : List HostInput) (i : Instr) (hi : s.inputs = .command w :: rest)
      (hd : decode w = .ok i) (hp : s.phase ≠ .fault) (h : Faulted i { s with inputs := rest } t)

theorem step_effect {s t : State} (h : step s = .next t) : StepEffect s t := by
  rcases step_cases h with ⟨_, rfl⟩ | ⟨w, rest, i, hi, hd, hx⟩ | ⟨_, rest, _, _, _, rfl⟩ | ⟨rest, hi, rfl⟩ |
    ⟨w, rest, hi, rfl⟩
  · exact .kept t.inputs rfl
  · rcases exec_cases hx with ⟨rfl, _⟩ | ⟨rfl, rfl⟩ | ⟨hp, hx | hx⟩
    · exact .kept rest rfl
    · exact .restarted s.out rest s.resets (by simp [nextEndsRun, hi, eq_of_decode_clr hd]) rfl
    · exact .performed w rest i hi hd hx
    · exact .faulted w rest i hi hd hp hx
  · by_cases hp : s.phase = .fault
    · exact .kept rest (if_pos hp)
    · exact .illegal rest hp (if_neg hp)
  · exact .restarted s.out rest s.resets (by simp [nextEndsRun, hi]) rfl
  · exact .restarted _ rest (s.resets + 1) (by simp [nextEndsRun, hi]) rfl

/-- A property of the engine's fields alone that holds at reset and survives every fault and every command performed
survives every step. -/
theorem step_preserves {P : State → Prop} (hin : ∀ s rest, P s → P { s with inputs := rest })
    (hreset : ∀ out rest n, P { State.reset with out := out, inputs := rest, resets := n })
    (hillegal : ∀ s, P s → P (raise .illCmd s))
    (hperf : ∀ i s t, P s → Performed i s t → P t) (hfault : ∀ i s t, P s → Faulted i s t → P t)
    {s t : State} (hs : P s) (h : step s = .next t) : P t := by
  cases step_effect h with
  | kept rest ht => exact ht ▸ hin s rest hs
  | restarted out rest n _ ht => exact ht ▸ hreset out rest n
  | illegal rest _ ht => exact ht ▸ hillegal _ (hin s rest hs)
  | performed _ rest i _ _ hx => exact hperf i _ t (hin s rest hs) hx
  | faulted _ rest i _ _ _ hx => exact hfault i _ t (hin s rest hs) hx

/-! ### The frames of the effects -/

theorem Performed.phase_load_or_run {i : Instr} {s t : State} (h : Performed i s t) :
    s.phase = .load ∨ s.phase = .run := by
  cases h <;> simp [*]

/-- A command that raises no fault leaves the phase, but for SEAL and for a FIN that ends the run (R22). -/
theorem Performed.phase_cases {i : Instr} {s t : State} (h : Performed i s t) :
    t.phase = s.phase ∨ (i = .sealTable ∧ s.phase = .load ∧ t.phase = .run) ∨
    (∃ pad, i = .fin pad ∧ s.phase = .run ∧ t.phase = .done) := by
  cases h with
  | cbit _ _ _ _ _ ht | ldc _ _ _ _ _ _ _ ht | ldl _ _ _ _ _ _ _ _ _ _ ht | pushFirst _ _ _ _ ht
  | pushNext _ _ _ _ _ _ _ _ _ ht => exact .inl (by subst ht; rfl)
  | sealTable hi hp _ ht => exact .inr (.inl ⟨hi, hp, by rw [ht]⟩)
  | finEmpty hi hp _ _ ht => exact .inr (.inr ⟨0, hi, hp, by rw [ht]⟩)
  | finLast pad _ _ hi hp _ _ _ ht => exact .inr (.inr ⟨pad, hi, hp, by rw [ht]⟩)

theorem Performed.phase_ne_fault {i : Instr} {s t : State} (h : Performed i s t) : t.phase ≠ .fault := by
  rcases h.phase_cases with ht | ⟨_, _, ht⟩ | ⟨_, _, _, ht⟩
  · rcases h.phase_load_or_run with hs | hs <;> simp [ht, hs]
  · simp [ht]
  · simp [ht]

theorem Faulted.phase_cause {i : Instr} {s t : State} (h : Faulted i s t) : t.phase = .fault ∧ t.cause ≠ .none := by
  cases h with
  | atOnce c hc _ ht => simp [ht, hc]
  | noCode _ _ _ _ _ _ _ _ ht | trunc _ _ _ _ _ _ _ _ ht => simp [ht]

/-- A fault leaves the table, its mode and its latest entry. -/
theorem Faulted.table_frame {i : Instr} {s t : State} (h : Faulted i s t) :
    t.mode = s.mode ∧ t.ct = s.ct ∧ t.last = s.last := by
  cases h with
  | atOnce _ _ _ ht | noCode _ _ _ _ _ _ _ _ ht | trunc _ _ _ _ _ _ _ _ ht => exact ht ▸ ⟨rfl, rfl, rfl⟩

/-- Outside phase RUN a fault writes only `phase` and `cause` (R183). -/
theorem Faulted.out_of_phase_ne_run {i : Instr} {s t : State} (h : Faulted i s t) (hp : s.phase ≠ .run) :
    t.out = s.out := by
  cases h with
  | atOnce _ _ _ ht => rw [ht, raise_out]
  | noCode _ _ _ _ hr | trunc _ _ _ _ hr => exact absurd hr hp

end Sys2Proof.Machine
end

section
/-! PROOFS. The invariants of 10_state.md R34 items 1 to 9: each fault and each command performed keeps them. -/

namespace Sys2Proof.Machine

/-! ### Tables -/

theorem validTable_nil : ValidTable [] := ⟨by simp [PrefixFree], by simp [CodeLengthsLegal]⟩

theorem PrefixFree.ctWrite {t : CodeTable} (h : PrefixFree t) {sym : Symbol} {n : Bits}
    (hc : conflicts t n = false) : PrefixFree (ctWrite t sym n) := by
  intro a b c d ha hb hne
  rw [ctRead_ctWrite] at ha hb
  split_ifs at ha hb with hsa hsb hsb
  · exact absurd (hsa.trans hsb.symm) hne
  · cases ha; exact (conflicts_eq_false_iff.1 hc b d hb).2
  · cases hb; exact (conflicts_eq_false_iff.1 hc a c ha).1
  · exact h a b c d ha hb hne

theorem CodeLengthsLegal.ctWrite {t : CodeTable} (h : CodeLengthsLegal t) {sym : Symbol} {n : Bits}
    (hn : 1 ≤ n.length ∧ n.length ≤ Config.maxLen) : CodeLengthsLegal (ctWrite t sym n) := by
  intro a c ha
  rw [ctRead_ctWrite] at ha
  split_ifs at ha
  · cases ha; exact hn
  · exact h a c ha

theorem ValidTable.ctWrite {t : CodeTable} (h : ValidTable t) {sym : Symbol} {n : Bits}
    (hc : conflicts t n = false) (hn : 1 ≤ n.length ∧ n.length ≤ Config.maxLen) : ValidTable (ctWrite t sym n) :=
  ⟨h.prefixFree.ctWrite hc, h.lengths.ctWrite hn⟩

/-- The two codes LDL makes: zeros for the first entry, `Next` of the latest one, in order, after it (R113, R114). -/
theorem ldlCode_cases {s : State} {sym : Symbol} {len : Nat} {code : Bits} (h : ldlCode s sym len = some code) :
    (s.last = none ∧ code = zeros len) ∨
    ∃ l prev, s.last = some l ∧ ctRead s.ct l = some prev ∧ prev.length ≤ len ∧
      (len = prev.length → l.toNat ≤ sym.toNat) ∧ incrementOverflows prev = false ∧ code = nextCode prev len := by
  unfold ldlCode at h
  cases hl : s.last with
  | none => rw [hl] at h; exact .inl ⟨rfl, (Option.some.inj h).symm⟩
  | some l =>
    cases hr : ctRead s.ct l with
    | none => simp [hl, hr] at h
    | some prev =>
      simp only [hl, hr, Option.ite_none_left_eq_some, not_or, not_and, Nat.not_lt, Bool.not_eq_true,
        Option.some.injEq] at h
      obtain ⟨⟨hlen, hsym, hover⟩, hcode⟩ := h
      exact .inr ⟨l, prev, rfl, hr, hlen, hsym, hover, hcode.symm⟩

theorem length_ldlCode {s : State} {sym : Symbol} {len : Nat} {code : Bits} (h : ldlCode s sym len = some code) :
    code.length = len := by
  rcases ldlCode_cases h with ⟨_, rfl⟩ | ⟨_, _, _, _, hlen, _, _, rfl⟩
  · exact length_zeros len
  · exact length_nextCode hlen

/-! ### The engine's invariants -/

/-- Settles O41: the empty table, and every field at rest. -/
theorem resetMeetsTheInvariants : Obligations.ResetMeetsTheInvariants :=
  ⟨⟨by decide, validTable_nil, by decide, nofun, by decide, by decide, by decide, by decide, by decide, by decide,
    by decide⟩, by simp [CanonInv, State.reset], by simp [WholeBytes, State.reset]⟩

/-- The sink's record and the model's own fields have no part in the invariants. -/
theorem EngineInv.with_record {s : State} (h : EngineInv s) (out : List Symbol) (rest : List HostInput) (n : Nat) :
    EngineInv { s with out := out, inputs := rest, resets := n } := { h with }

theorem EngineInv.raise {s : State} (h : EngineInv s) {c : Cause} (hc : c ≠ .none) : EngineInv (raise c s) :=
  { h with
    sealedStaging := by simp
    loadIdle := by simp
    doneIdle := by simp
    causeOnlyInFault := by simpa using hc }

/-- What a PUSH or a FIN writes while the run goes on. -/
theorem EngineInv.walked {s : State} (h : EngineInv s) (hp : s.phase = .run) {p : Bits}
    (hin : atInner s.ct p = true) (k : Nat) (e : List Symbol) (held : Option Byte) :
    EngineInv { walked s k e p with hold := held } :=
  { h with
    loadIdle := by simp [hp]
    doneIdle := by simp [hp]
    walkerOnTrie := hin }

theorem EngineInv.done {s : State} (h : EngineInv s) (hp : s.phase = .run) (hh : s.hold = none) (hc : s.cur = []) :
    EngineInv { s with phase := .done } :=
  { h with
    sealedStaging := fun _ => h.sealedStaging (.inl hp)
    loadIdle := by simp
    doneIdle := fun _ => ⟨hh, hc⟩
    causeOnlyInFault := by simpa [hp] using h.causeOnlyInFault }

theorem EngineInv.atInner_nil {s : State} (h : EngineInv s) : atInner s.ct [] = true := atInner_root h.table.lengths

theorem EngineInv.stg_eq_nil {s : State} (h : EngineInv s) (hm : s.mode ≠ .plain) : s.stg = [] := by
  cases hs : s.mode with
  | none => exact (h.modeNone hs).2.1
  | plain => exact absurd hs hm
  | canon => exact (h.modeCanon hs).1

/-- In phase LOAD the walker is at the root, and the root is an inner node of every table whose codes are legal. -/
theorem EngineInv.atInner_of_load {s : State} (h : EngineInv s) (hp : s.phase = .load) {t : CodeTable}
    (ht : ValidTable t) : atInner t s.cur = true := by
  rw [(h.loadIdle hp).2.1]
  exact atInner_root ht.lengths

theorem EngineInv.cbit {s : State} (h : EngineInv s) (hp : s.phase = .load) (hm : s.mode ≠ .canon)
    (hl : s.stg.length ≠ Config.maxLen) (b : Bool) : EngineInv { s with stg := s.stg ++ [b], mode := .plain } :=
  { h with
    modeNone := by simp
    modeCanon := by simp
    lastOnlyCanon := fun _ => h.lastOnlyCanon hm
    sealedStaging := by simp [hp]
    stagingWidth := by
      have := h.stagingWidth
      rw [List.length_append, List.length_singleton]
      omega }

theorem EngineInv.loadPlain {s : State} (h : EngineInv s) (hp : s.phase = .load) (hm : s.mode ≠ .canon)
    (hs : s.stg ≠ []) (hc : conflicts s.ct s.stg = false) (sym : Symbol) : EngineInv (loadPlain sym s) :=
  have hv : ValidTable (ctWrite s.ct sym s.stg) :=
    h.table.ctWrite hc ⟨List.length_pos_iff.2 hs, h.stagingWidth⟩
  { h with
    canonicalList := ctWrite_wf h.canonicalList sym s.stg
    table := hv
    modeNone := by simp
    modeCanon := by simp
    lastOnlyCanon := fun _ => h.lastOnlyCanon hm
    sealedStaging := by simp
    walkerOnTrie := h.atInner_of_load hp hv
    stagingWidth := by simp }

theorem EngineInv.loadCanon {s : State} (h : EngineInv s) (hp : s.phase = .load) (hm : s.mode ≠ .plain) {code : Bits}
    (hl : 1 ≤ code.length ∧ code.length ≤ Config.maxLen) (hc : conflicts s.ct code = false) (sym : Symbol) :
    EngineInv (loadCanon sym code s) :=
  have hv : ValidTable (ctWrite s.ct sym code) := h.table.ctWrite hc hl
  { h with
    canonicalList := ctWrite_wf h.canonicalList sym code
    table := hv
    modeNone := by simp
    modeCanon := fun _ => ⟨h.stg_eq_nil hm, sym, code, rfl, ctRead_ctWrite_same s.ct sym code⟩
    lastOnlyCanon := by simp
    walkerOnTrie := h.atInner_of_load hp hv }

theorem EngineInv.sealTable {s : State} (h : EngineInv s) (hp : s.phase = .load) (hs : s.stg = []) :
    EngineInv { s with phase := .run } :=
  { h with
    sealedStaging := fun _ => hs
    loadIdle := by simp
    doneIdle := by simp
    causeOnlyInFault := by simpa [hp] using h.causeOnlyInFault }

theorem EngineInv.performed {i : Instr} {s t : State} (h : EngineInv s) (hx : Performed i s t) : EngineInv t := by
  cases hx with
  | cbit b _ hp hm hl ht => exact ht ▸ h.cbit hp hm hl b
  | ldc sym _ hp hm hs _ hc ht => exact ht ▸ h.loadPlain hp hm hs hc sym
  | ldl sym len code _ hp hm hl _ hcode hc ht =>
    have hlen : code.length = len.toNat := length_ldlCode hcode
    have hpos : len.toNat ≠ 0 := fun h0 => hl (BitVec.eq_of_toNat_eq h0)
    have hmax : len.toNat ≤ Config.maxLen := Nat.le_of_lt_succ len.isLt
    exact ht ▸ h.loadCanon hp hm ⟨by omega, by omega⟩ hc sym
  | sealTable _ hp hs ht => exact ht ▸ h.sealTable hp hs
  | pushFirst byte _ hp _ ht => exact ht ▸ { h with loadIdle := by simp [hp], doneIdle := by simp [hp] }
  | pushNext byte _ e p _ hp _ _ hin ht =>
    exact ht ▸ h.walked hp (hin h.table.lengths h.walkerOnTrie) 8 e (some byte)
  | finEmpty _ hp hh hc ht => exact ht ▸ h.done hp hh hc
  | finLast pad _ e _ hp _ _ _ ht => exact ht ▸ (h.walked hp h.atInner_nil (8 - pad.toNat) e none).done hp rfl rfl

theorem EngineInv.faulted {i : Instr} {s t : State} (h : EngineInv s) (hx : Faulted i s t) : EngineInv t := by
  cases hx with
  | atOnce c hc _ ht => exact ht ▸ h.raise hc
  | noCode e p k _ hp _ _ hin ht =>
    exact ht ▸ (h.walked hp (hin h.table.lengths h.walkerOnTrie) k e s.hold).raise (by decide)
  | trunc pad e p _ hp _ _ hin ht =>
    exact ht ▸ (h.walked hp (hin h.table.lengths h.walkerOnTrie) (8 - pad.toNat) e none).raise (by decide)

/-- Settles O42, effect by effect: each fault and each command performed keeps the invariants. -/
theorem stepKeepsTheInvariants : Obligations.StepKeepsTheInvariants := fun _ _ =>
  step_preserves (fun s rest h => h.with_record s.out rest s.resets)
    resetMeetsTheInvariants.1.with_record (fun _ h => h.raise (by decide))
    (fun _ _ _ => EngineInv.performed) (fun _ _ _ => EngineInv.faulted)

/-- A further property of the engine's fields, kept where the invariants hold (`step_preserves`). -/
theorem step_preserves_under_engineInv {Q : State → Prop} (hin : ∀ s rest, Q s → Q { s with inputs := rest })
    (hreset : ∀ out rest n, Q { State.reset with out := out, inputs := rest, resets := n })
    (hillegal : ∀ s, Q s → Q (raise .illCmd s))
    (hperf : ∀ {i s t}, EngineInv s → Q s → Performed i s t → Q t) (hfault : ∀ {i s t}, Q s → Faulted i s t → Q t)
    {s t : State} (hinv : EngineInv s) (hq : Q s) (h : step s = .next t) : Q t :=
  (step_preserves (P := fun s => EngineInv s ∧ Q s)
    (fun s rest h => ⟨h.1.with_record s.out rest s.resets, hin s rest h.2⟩)
    (fun out rest n => ⟨resetMeetsTheInvariants.1.with_record out rest n, hreset out rest n⟩)
    (fun s h => ⟨h.1.raise (by decide), hillegal s h.2⟩)
    (fun _ _ _ h hx => ⟨h.1.performed hx, hperf h.1 h.2 hx⟩)
    (fun _ _ _ h hx => ⟨h.1.faulted hx, hfault h.2 hx⟩) ⟨hinv, hq⟩ h).2

end Sys2Proof.Machine
end

section
/-! PROOFS. The order and the arithmetic of a canonical table (spec 10_state.md R34 item 10, 41_table_load.md R113, R114,
R117): LDL puts its entry behind the ones it follows, and nothing else writes a canonical table. -/

namespace Sys2Proof.Machine

/-- A write of a new symbol adds one entry. -/
theorem ctWrite_perm {t : CodeTable} {sym : Symbol} (c : Bits) (h : ctRead t sym = none) :
    (ctWrite t sym c).Perm ((sym, c) :: t) := by
  induction t with
  | nil => exact .refl _
  | cons e rest ih =>
    rw [ctRead_cons] at h
    split_ifs at h with he
    rw [ctWrite, if_neg he]
    split
    · exact .refl _
    · exact ((ih h).cons e).trans (.swap _ _ _)

/-- A new entry that follows the latest one, or is all zeros where there is none, extends a canonical table. -/
theorem CanonOrder.snoc {t : CodeTable} {last : Option Symbol} {order : List (Symbol × Bits)}
    (h : CanonOrder t last order) {sym : Symbol} {c : Bits} (hf : ctRead t sym = none)
    (hzero : order = [] → c = zeros c.length) (hfol : ∀ e ∈ order.getLast?, CanonFollows e (sym, c)) :
    CanonOrder (ctWrite t sym c) (some sym) (order ++ [(sym, c)]) where
  entries := (List.perm_append_singleton _ _).trans ((h.entries.cons _).trans (ctWrite_perm c hf).symm)
  follows := List.isChain_append.2 ⟨h.follows, .singleton _, fun e he f hf => by
    obtain rfl : (sym, c) = f := by simpa using hf
    exact hfol e he⟩
  first := by
    cases order with
    | nil => simpa using hzero rfl
    | cons e rest => exact h.first
  latest := by simp

/-- In mode CANON the code LDL makes follows the latest entry (R113, R114, R117). -/
theorem canonFollows_of_ldlCode {s : State} {l sym : Symbol} {len : Nat} {prev code : Bits} (hl : s.last = some l)
    (hr : ctRead s.ct l = some prev) (hf : ctRead s.ct sym = none) (hcode : ldlCode s sym len = some code) :
    CanonFollows (l, prev) (sym, code) := by
  have hlen : code.length = len := length_ldlCode hcode
  rcases ldlCode_cases hcode with ⟨hn, _⟩ | ⟨l', prev', hl', hr', hle, hsym, hover, rfl⟩
  · simp [hl] at hn
  · obtain rfl : l = l' := Option.some.inj (hl.symm.trans hl')
    obtain rfl : prev = prev' := Option.some.inj (hr.symm.trans hr')
    have hne : l.toNat ≠ sym.toNat := fun h => by
      rw [BitVec.eq_of_toNat_eq h, hf] at hr
      cases hr
    refine ⟨?_, ?_⟩
    · show prev.length < (nextCode prev len).length ∨ prev.length = (nextCode prev len).length ∧ l.toNat < sym.toNat
      rw [hlen]
      rcases Nat.lt_or_eq_of_le hle with hlt | heq
      · exact .inl hlt
      · exact .inr ⟨heq, lt_of_le_of_ne (hsym heq.symm) hne⟩
    · show val (nextCode prev len) = (val prev + 1) * 2 ^ ((nextCode prev len).length - prev.length)
      rw [hlen, val_nextCode len hover]

/-- LDL's first entry is a canonical table of its own; a later one extends the table. -/
theorem CanonInv.loadCanon {s : State} (hinv : EngineInv s) (h : CanonInv s) {sym : Symbol} {len : Nat} {code : Bits}
    (hm : s.mode ≠ .plain) (hf : ctRead s.ct sym = none) (hcode : ldlCode s sym len = some code) :
    CanonInv (loadCanon sym code s) := by
  intro _
  cases hs : s.mode with
  | none =>
    obtain ⟨hct, _, hlast⟩ := hinv.modeNone hs
    have hz : code = zeros code.length := by
      rcases ldlCode_cases hcode with ⟨_, rfl⟩ | ⟨l, _, hl, _⟩
      · rw [length_zeros]
      · simp [hlast] at hl
    have h0 : CanonOrder s.ct none [] := ⟨hct ▸ .refl _, .nil, by simp, rfl⟩
    exact ⟨_, h0.snoc hf (fun _ => hz) (by simp)⟩
  | plain => exact absurd hs hm
  | canon =>
    obtain ⟨order, ho⟩ := h hs
    obtain ⟨_, l, prev, hl, hr⟩ := hinv.modeCanon hs
    have hlatest : ∀ e ∈ order.getLast?, e = (l, prev) := by
      intro e he
      have hel : e.1 = l := by simpa [Option.mem_def.1 he, hl] using ho.latest
      have hread := ctRead_eq_some_of_mem hinv.canonicalList (ho.entries.mem_iff.1 (List.mem_of_mem_getLast? he))
      rw [hel, hr] at hread
      exact Prod.ext hel (Option.some.inj hread).symm
    have hne : order ≠ [] := fun h => by simpa [h, hl] using ho.latest
    exact ⟨_, ho.snoc hf (fun h => absurd h hne) fun e he => hlatest e he ▸ canonFollows_of_ldlCode hl hr hf hcode⟩

/-- The invariant speaks of the table, its mode and its latest entry alone. -/
theorem CanonInv.of_eq {s t : State} (h : CanonInv s) (hframe : t.mode = s.mode ∧ t.ct = s.ct ∧ t.last = s.last) :
    CanonInv t := by
  obtain ⟨hm, hct, hl⟩ := hframe
  rw [CanonInv, hm, hct, hl]
  exact h

theorem CanonInv.performed {i : Instr} {s t : State} (hinv : EngineInv s) (h : CanonInv s) (hx : Performed i s t) :
    CanonInv t := by
  cases hx with
  | cbit _ _ _ _ _ ht | ldc _ _ _ _ _ _ _ ht => rw [ht]; exact nofun
  | ldl _ _ _ _ _ hm _ hf hcode _ ht => exact ht ▸ h.loadCanon hinv hm hf hcode
  | sealTable _ _ _ ht | pushFirst _ _ _ _ ht | pushNext _ _ _ _ _ _ _ _ _ ht | finEmpty _ _ _ _ ht
  | finLast _ _ _ _ _ _ _ _ ht => exact h.of_eq (by subst ht; exact ⟨rfl, rfl, rfl⟩)

/-- Settles O43, effect by effect: LDL extends the order, and a fault or another command that leaves mode CANON leaves
the table. -/
theorem stepKeepsCanonicalOrder : Obligations.StepKeepsCanonicalOrder := fun _ _ =>
  step_preserves_under_engineInv (fun _ _ h => h) (fun _ _ _ => nofun) (fun _ h => h)
    CanonInv.performed (fun h hx => h.of_eq hx.table_frame)

end Sys2Proof.Machine
end

section
/-! PROOFS. What a step does to the mode, the phase and a run that has ended (spec 10_state.md R22 to R24). -/

namespace Sys2Proof.Machine

/-- CBIT and LDC set PLAIN where the mode is not CANON, LDL sets CANON where it is not PLAIN (R24, R110). -/
theorem Performed.mode_of_ne_none {i : Instr} {s t : State} (h : Performed i s t) (hm : s.mode ≠ .none) :
    t.mode = s.mode := by
  cases h with
  | cbit _ _ _ hc _ ht | ldc _ _ _ hc _ _ _ ht =>
    subst ht
    cases hs : s.mode <;> trivial
  | ldl _ _ _ _ _ hp _ _ _ _ ht =>
    subst ht
    cases hs : s.mode <;> trivial
  | sealTable _ _ _ ht | pushFirst _ _ _ _ ht | pushNext _ _ _ _ _ _ _ _ _ ht | finEmpty _ _ _ _ ht
  | finLast _ _ _ _ _ _ _ _ ht => subst ht; rfl

/-- Settles O25, effect by effect. -/
theorem modeIsFixedOnceSet : Obligations.ModeIsFixedOnceSet := by
  intro s t h hrun
  cases step_effect h with
  | kept _ ht => subst ht; exact ⟨fun _ => rfl, fun _ _ => rfl⟩
  | restarted _ _ _ he _ => rw [he] at hrun; cases hrun
  | illegal _ _ ht => subst ht; exact ⟨fun _ => rfl, fun _ _ => rfl⟩
  | performed _ _ _ _ _ hx => exact ⟨hx.mode_of_ne_none, fun _ hf => absurd hf hx.phase_ne_fault⟩
  | faulted _ _ _ _ _ _ hx => exact ⟨fun _ => hx.table_frame.1, fun _ _ => hx.table_frame.1⟩

/-- Settles O46, effect by effect: of the commands performed only SEAL and FIN move the phase. -/
theorem phaseMovesAreTheLegalOnes : Obligations.PhaseMovesAreTheLegalOnes := by
  intro s t h hne
  cases step_effect h with
  | kept _ ht => exact absurd (congrArg State.phase ht) hne
  | restarted _ _ _ he ht => exact .inr (.inr (.inr ⟨by rw [ht]; rfl, he⟩))
  | illegal _ hp ht => exact .inr (.inr (.inl ⟨hp, by simp [ht], by simp [ht]⟩))
  | faulted _ _ _ _ _ hp hx => exact .inr (.inr (.inl ⟨hp, hx.phase_cause⟩))
  | performed w rest i hi hd hx =>
    rcases hx.phase_cases with ht | ⟨rfl, hs, ht⟩ | ⟨pad, rfl, hs, ht⟩
    · exact absurd ht hne
    · exact .inl ⟨hs, ht, rest, eq_of_decode_sealTable hd ▸ hi⟩
    · exact .inr (.inl ⟨hs, ht, pad, rest, eq_encode_of_decode_fin hd ▸ hi⟩)

/-- Settles O47, effect by effect: in FAULT no command is performed or faults, and in DONE none is performed. -/
theorem endedRunStaysEnded : Obligations.EndedRunStaysEnded := by
  intro s t h hrun
  cases step_effect h with
  | kept _ ht => subst ht; exact ⟨fun hp => ⟨hp, rfl, rfl, rfl⟩, fun hp => ⟨.inl hp, rfl⟩⟩
  | restarted _ _ _ he _ => rw [he] at hrun; cases hrun
  | illegal _ hp ht => subst ht; exact ⟨fun hf => absurd hf hp, fun _ => ⟨.inr rfl, rfl⟩⟩
  | performed _ _ _ _ _ hx =>
    have hs : s.phase = .load ∨ s.phase = .run := hx.phase_load_or_run
    exact ⟨fun hf => by simp [hf] at hs, fun hd => by simp [hd] at hs⟩
  | faulted _ rest _ _ _ hp hx =>
    exact ⟨fun hf => absurd hf hp, fun hd => ⟨.inr hx.phase_cause.1,
      hx.out_of_phase_ne_run (show s.phase ≠ .run by simp [hd])⟩⟩

end Sys2Proof.Machine
end

section
/-! PROOFS. The counters (spec 10_state.md R30, R31, R34 item 11, 42_bit_unpacker.md R142, R144). -/

namespace Sys2Proof.Machine

/-- The command `i` has led from `s` to `t` by consuming at most 8 bits, none but under PUSH and FIN, and emitting and
counting at most one symbol a bit. -/
def CountsItsBits (i : Instr) (s t : State) : Prop :=
  ∃ k e, k ≤ 8 ∧ e.length ≤ k ∧ t.nbits = s.nbits + BitVec.ofNat 64 k ∧ t.out = s.out ++ e ∧
    t.nsyms = s.nsyms + BitVec.ofNat 64 e.length ∧ ((∀ byte, i ≠ .push byte) → (∀ pad, i ≠ .fin pad) → k = 0)

theorem CountsItsBits.of_none {i : Instr} {s t : State} (hb : t.nbits = s.nbits) (ho : t.out = s.out)
    (hn : t.nsyms = s.nsyms) : CountsItsBits i s t :=
  ⟨0, [], by decide, by decide, by simp [hb], by simp [ho], by simp [hn], fun _ _ => rfl⟩

/-- What PUSH and FIN feed to the walker is counted, whatever they write besides. -/
theorem CountsItsBits.of_payload {i : Instr} {s t : State} {k : Nat} {e : List Symbol}
    (hi : (∃ byte, i = .push byte) ∨ ∃ pad, i = .fin pad) (hk : k ≤ 8) (he : e.length ≤ k)
    (hb : t.nbits = s.nbits + BitVec.ofNat 64 k) (ho : t.out = s.out ++ e)
    (hn : t.nsyms = s.nsyms + BitVec.ofNat 64 e.length) : CountsItsBits i s t := by
  refine ⟨k, e, hk, he, hb, ho, hn, fun hpush hfin => ?_⟩
  rcases hi with ⟨byte, rfl⟩ | ⟨pad, rfl⟩
  · exact absurd rfl (hpush byte)
  · exact absurd rfl (hfin pad)

theorem Performed.countsItsBits {i : Instr} {s t : State} (h : Performed i s t) : CountsItsBits i s t := by
  cases h with
  | cbit _ _ _ _ _ ht | ldc _ _ _ _ _ _ _ ht | ldl _ _ _ _ _ _ _ _ _ _ ht | sealTable _ _ _ ht
  | pushFirst _ _ _ _ ht | finEmpty _ _ _ _ ht => subst ht; exact .of_none rfl rfl rfl
  | pushNext byte _ _ _ hi _ _ he _ ht => subst ht; exact .of_payload (.inl ⟨byte, hi⟩) le_rfl he rfl rfl rfl
  | finLast pad _ _ hi _ _ _ he ht => subst ht; exact .of_payload (.inr ⟨pad, hi⟩) (Nat.sub_le 8 _) he rfl rfl rfl

theorem Faulted.countsItsBits {i : Instr} {s t : State} (h : Faulted i s t) : CountsItsBits i s t := by
  cases h with
  | atOnce _ _ _ ht => subst ht; exact .of_none rfl rfl rfl
  | noCode _ _ _ hi _ hk he _ ht => subst ht; exact .of_payload hi hk.le he rfl rfl rfl
  | trunc pad _ _ hi _ _ he _ ht => subst ht; exact .of_payload (.inr ⟨pad, hi⟩) (Nat.sub_le 8 _) he rfl rfl rfl

/-- Settles O49, effect by effect: only what is fed to the walker moves the counters. -/
theorem countersFollowBitsAndSymbols : Obligations.CountersFollowBitsAndSymbols := by
  intro s t i hi h
  rcases exec_cases h with ⟨rfl, _⟩ | ⟨hc, _⟩ | ⟨_, hx | hx⟩
  · exact CountsItsBits.of_none rfl rfl rfl
  · exact absurd hc hi
  · exact hx.countsItsBits
  · exact hx.countsItsBits

/-! ### Whole bytes -/

/-- The counter wraps at a multiple of 8 (R30). -/
theorem toNat_add_mod_eight (n : Count) (k : Nat) : (n + BitVec.ofNat 64 k).toNat % 8 = (n.toNat + k) % 8 := by
  rw [BitVec.toNat_add, BitVec.toNat_ofNat]
  omega

/-- SEAL opens the run at 0 bits, and a PUSH consumes no bit or 8. -/
theorem WholeBytes.performed {i : Instr} {s t : State} (hinv : EngineInv s) (h : WholeBytes s)
    (hx : Performed i s t) : WholeBytes t := by
  cases hx with
  | cbit _ _ hp _ _ ht | ldc _ _ hp _ _ _ _ ht | ldl _ _ _ _ hp _ _ _ _ _ ht =>
    subst ht
    exact fun hr => by cases hp.symm.trans hr
  | sealTable _ hp _ ht =>
    subst ht
    intro _
    show s.nbits.toNat % 8 = 0
    rw [(hinv.loadIdle hp).2.2.1]
    rfl
  | pushFirst _ _ _ _ ht => subst ht; exact h
  | pushNext _ _ e p _ _ _ _ _ ht =>
    subst ht
    intro hr
    show (s.nbits + BitVec.ofNat 64 8).toNat % 8 = 0
    rw [toNat_add_mod_eight, Nat.add_mod_right]
    exact h hr
  | finEmpty _ _ _ _ ht | finLast _ _ _ _ _ _ _ _ ht => subst ht; exact nofun

/-- A FIN that ends the run consumes what its padding leaves of a byte, or nothing where no byte is held (R143, R144). -/
theorem Performed.nbits_add_pad {s t : State} {pad : BitVec 8} (h : Performed (.fin pad) s t) (hw : WholeBytes s) :
    (t.nbits.toNat + pad.toNat) % 8 = 0 := by
  cases h with
  | cbit _ hi | ldc _ hi | ldl _ _ _ hi | sealTable hi | pushFirst _ hi | pushNext _ _ _ _ hi => cases hi
  | finEmpty hi hp _ _ ht =>
    cases hi
    subst ht
    exact hw hp
  | finLast _ _ e hi hp hpad _ _ ht =>
    cases hi
    subst ht
    have hs := hw hp
    have ht := toNat_add_mod_eight s.nbits (8 - pad.toNat)
    show ((s.nbits + BitVec.ofNat 64 (8 - pad.toNat)).toNat + pad.toNat) % 8 = 0
    omega

/-- Settles O44: the first clause effect by effect, the second by the two ways a FIN ends a run. -/
theorem runConsumesWholeBytes : Obligations.RunConsumesWholeBytes := by
  constructor
  · exact fun _ _ => step_preserves_under_engineInv (fun _ _ h => h) (fun _ _ _ => nofun) (fun _ _ => nofun)
      WholeBytes.performed (fun _ hx hr => by cases hx.phase_cause.1.symm.trans hr)
  · intro s t pad hw h hr hd
    rcases exec_cases h with ⟨rfl, _⟩ | ⟨hi, _⟩ | ⟨_, hx | hx⟩
    · cases hr.symm.trans hd
    · cases hi
    · exact hx.nbits_add_pad hw
    · cases hx.phase_cause.1.symm.trans hd

end Sys2Proof.Machine
end

section
/-! PROOFS. The status words (spec 10_state.md R32, R36 to R42): each field of a word is what was placed there. -/

namespace Sys2Proof

/-- A field is read back from where it was placed. -/
@[simp] theorem extractLsb'_place_same {n : Nat} (v : BitVec n) {lo : Nat} (h : lo + n ≤ 32) :
    (place v lo).extractLsb' lo n = v := by
  ext i hi
  rw [BitVec.getElem_extractLsb', getLsbD_place, Nat.add_sub_cancel_left, BitVec.getLsbD_eq_getElem hi]
  simp
  omega

/-- Beside the place of a field there are zeros. -/
@[simp] theorem extractLsb'_place_beside {n m : Nat} (v : BitVec n) {lo l : Nat} (h : l + m ≤ lo ∨ lo + n ≤ l) :
    (place v lo).extractLsb' l m = 0#m := by
  ext i hi
  rw [BitVec.getElem_extractLsb', getLsbD_place, BitVec.getElem_zero]
  rcases h with h | h
  · simp [show ¬ lo ≤ l + i by omega]
  · simp [BitVec.getLsbD_of_ge v (l + i - lo) (by omega)]

namespace Machine

/-! ### NENT -/

/-- Settles O52: the symbols listed, without repetition, are those that have a code. -/
theorem nentCountsTheEntries : Obligations.NentCountsTheEntries := by
  refine fun t => ⟨?_, nent_le t⟩
  have hlisted : Finset.univ.filter (fun a : Fin 256 => ctRead t (BitVec.ofFin a) ≠ none) =
      (ctSymbols t).toFinset.image BitVec.toFin := by
    ext a
    simp only [Finset.mem_filter, Finset.mem_univ, true_and, ne_eq, ctRead_eq_none_iff, not_not, Finset.mem_image,
      List.mem_toFinset]
    exact ⟨fun h => ⟨_, h, rfl⟩, fun ⟨b, hb, h⟩ => h ▸ hb⟩
  rw [hlisted, Finset.card_image_of_injective _ BitVec.toFin_injective, List.card_toFinset, nent]

/-! ### STATUS -/

theorem statusRead_zero (s : State) : statusRead s 0 = statusWord s := rfl
theorem statusRead_one (s : State) : statusRead s 1 = lensWord s := rfl

theorem statusWord_phase (s : State) : (statusWord s).extractLsb' 0 2 = s.phase.code := by
  simp [statusWord, BitVec.extractLsb'_or]

theorem statusWord_mode (s : State) : (statusWord s).extractLsb' 2 2 = s.mode.code := by
  simp [statusWord, BitVec.extractLsb'_or]

theorem statusWord_cause (s : State) : (statusWord s).extractLsb' 4 4 = s.cause.code := by
  simp [statusWord, BitVec.extractLsb'_or]

theorem statusWord_holdv (s : State) : (statusWord s).getLsbD 8 = flagHoldv s := by
  simp [statusWord, getElem_place]

theorem statusWord_root (s : State) : (statusWord s).getLsbD 9 = flagRoot s := by
  simp [statusWord, getElem_place]

theorem statusWord_done (s : State) : (statusWord s).getLsbD 10 = flagDone s := by
  simp [statusWord, getElem_place]

theorem statusWord_fault (s : State) : (statusWord s).getLsbD 11 = flagFault s := by
  simp [statusWord, getElem_place]

theorem statusWord_nent (s : State) : (statusWord s).extractLsb' 16 9 = BitVec.ofNat 9 (nent s.ct) := by
  simp [statusWord, BitVec.extractLsb'_or]

theorem statusWord_reserved (s : State) :
    (statusWord s).extractLsb' 12 4 = 0 ∧ (statusWord s).extractLsb' 25 7 = 0 := by
  simp [statusWord, BitVec.extractLsb'_or]

/-! Distinct phases, modes and causes have distinct codes (R22, R24, R181). -/

theorem Phase.code_injective : Function.Injective Phase.code := by
  intro p q; cases p <;> cases q <;> decide

theorem TableMode.code_injective : Function.Injective TableMode.code := by
  intro m n; cases m <;> cases n <;> decide

theorem Cause.code_injective : Function.Injective Cause.code := by
  intro c d; cases c <;> cases d <;> decide

/-- Settles O53: each field is read back from its place, and its codes are told apart. -/
theorem statusWordHasItsFields : Obligations.StatusWordHasItsFields := by
  intro s
  have hnent : nent s.ct < 2 ^ 9 := (nent_le s.ct).trans_lt (by decide)
  rw [statusRead_zero, statusWord_phase, statusWord_mode, statusWord_cause, statusWord_holdv, statusWord_root,
    statusWord_done, statusWord_fault, statusWord_nent, BitVec.toNat_ofNat, Nat.mod_eq_of_lt hnent]
  have phase {p c} (h : p.code = c) : s.phase.code = c ↔ s.phase = p := Phase.code_injective.eq_iff' h
  have mode {m c} (h : m.code = c) : s.mode.code = c ↔ s.mode = m := TableMode.code_injective.eq_iff' h
  have cause {d c} (h : d.code = c) : s.cause.code = c ↔ s.cause = d := Cause.code_injective.eq_iff' h
  exact ⟨phase rfl, phase rfl, phase rfl, phase rfl, mode rfl, mode rfl, mode rfl,
    cause rfl, cause rfl, cause rfl, cause rfl, cause rfl, cause rfl, cause rfl, cause rfl, cause rfl, cause rfl,
    cause rfl, cause rfl, by simp [flagHoldv, Option.isSome_iff_ne_none], by simp [flagRoot], by simp [flagDone],
    by simp [flagFault], (statusWord_reserved s).1, rfl, (statusWord_reserved s).2⟩

/-! ### LENS -/

theorem lensWord_stgLen (s : State) : (lensWord s).extractLsb' 0 8 = BitVec.ofNat 8 s.stg.length := by
  simp [lensWord, BitVec.extractLsb'_or]

theorem lensWord_curLen (s : State) : (lensWord s).extractLsb' 8 8 = BitVec.ofNat 8 s.cur.length := by
  simp [lensWord, BitVec.extractLsb'_or]

theorem lensWord_lastLen (s : State) : (lensWord s).extractLsb' 16 8 = BitVec.ofNat 8 (lastLen s) := by
  simp [lensWord, BitVec.extractLsb'_or]

theorem lensWord_last (s : State) : (lensWord s).extractLsb' 24 8 = s.last.getD 0 := by
  simp [lensWord, BitVec.extractLsb'_or]

theorem lastLen_of_none {s : State} (h : s.last = none) : lastLen s = 0 := by simp [lastLen, h]

theorem lastLen_of_some {s : State} {l : Symbol} {c : Bits} (h : s.last = some l) (hc : ctRead s.ct l = some c) :
    lastLen s = c.length := by simp [lastLen, h, hc]

/-- The walker stands on a prefix of a code, so `cur` is no longer than one (R20). -/
theorem EngineInv.cur_length_le {s : State} (h : EngineInv s) : s.cur.length ≤ Config.maxLen := by
  rcases isNode_iff.1 (atInner_iff.1 h.walkerOnTrie).1 with hroot | ⟨a, c, hc, hp⟩
  · simp [hroot]
  · exact hp.length_le.trans (h.table.lengths a c hc).2

/-- A length of at most 255 fits its field (R20, R38). -/
theorem toNat_ofNat_of_le_maxLen {n : Nat} (h : n ≤ Config.maxLen) : (BitVec.ofNat 8 n).toNat = n := by
  rw [BitVec.toNat_ofNat]
  exact Nat.mod_eq_of_lt (Nat.lt_succ_of_le h)

/-- Settles O54: each field is read back from its place, and the invariants keep the lengths within it. -/
theorem lensWordHasItsFields : Obligations.LensWordHasItsFields := by
  intro s hinv
  rw [statusRead_one, lensWord_stgLen, lensWord_curLen, lensWord_lastLen, lensWord_last]
  refine ⟨toNat_ofNat_of_le_maxLen hinv.stagingWidth, toNat_ofNat_of_le_maxLen hinv.cur_length_le, fun hl => ?_,
    fun l c hl hc => ?_⟩
  · simp [lastLen_of_none hl, hl]
  · rw [lastLen_of_some hl hc, hl]
    exact ⟨toNat_ofNat_of_le_maxLen (hinv.table.lengths l c hc).2, rfl⟩

/-! ### The counters, and the values after reset -/

theorem toNat_eq_halves (n : Count) : n.toNat = (highHalf n).toNat * 2 ^ 32 + (lowHalf n).toNat := by
  have := n.isLt
  simp only [highHalf, lowHalf, BitVec.extractLsb'_toNat, Nat.shiftRight_eq_div_pow]
  omega

/-- Settles O55. -/
theorem counterWordsAreTheHalves : Obligations.CounterWordsAreTheHalves :=
  fun s => ⟨toNat_eq_halves s.nbits, toNat_eq_halves s.nsyms, rfl, rfl⟩

/-- Settles O58: the values of one state. -/
theorem resetValues : Obligations.ResetValues :=
  ⟨rfl, rfl, rfl, fun _ => rfl, rfl, rfl, rfl, rfl, rfl, rfl, rfl, rfl, rfl, rfl, rfl, rfl, rfl, rfl, rfl⟩

end Machine
end Sys2Proof
end

section
/-! PROOFS. One step on the command channel, and the order of a payload byte's bits (spec 00_scope.md R5, 20_memory.md
R52, R65). -/

namespace Sys2Proof.Machine

/-- A word that decodes is taken off the channel and its command performed (R65, R100). -/
theorem step_of_decode {s : State} {w : Word} {rest : List HostInput} {i : Instr} (hi : s.inputs = .command w :: rest)
    (hd : decode w = .ok i) : step s = exec i { s with inputs := rest } := by
  rw [step, hi]
  show performWord w { s with inputs := rest } = exec i { s with inputs := rest }
  rw [performWord, hd]

theorem step_of_no_input {s : State} (h : s.inputs = []) : step s = .next s := by
  rw [step, h]

/-- Settles O6. -/
theorem stepRunsTheDecodedCommand : Obligations.StepRunsTheDecodedCommand :=
  ⟨fun _ _ _ _ => step_of_decode, fun _ => step_of_no_input⟩

/-- The bits of a byte in stream order are those of its value, the first the most significant (R8, R52). -/
theorem streamBits_eq_bitsOf (h : Byte) : streamBits h = bitsOf 8 h.toNat := rfl

/-- Settles O27. -/
theorem streamBitsAreMostSignificantFirst : Obligations.StreamBitsAreMostSignificantFirst := by
  refine ⟨fun _ => rfl, fun h => ?_, rfl⟩
  rw [streamBits_eq_bitsOf, val_bitsOf h.isLt]

end Sys2Proof.Machine
end

section
/-! PROOFS. Leaves, nodes and conflicts of a code table (spec 20_memory.md R58 to R61). -/

namespace Sys2Proof.Machine

/-- A write that keeps a table prefix-free is of a code in conflict with none (R61). -/
theorem conflicts_eq_false_of_prefixFree_ctWrite {t : CodeTable} {sym : Symbol} {n : Bits}
    (hf : ctRead t sym = none) (h : PrefixFree (ctWrite t sym n)) : conflicts t n = false := by
  rw [conflicts_eq_false_iff]
  intro a c ha
  have hne : a ≠ sym := fun he => by rw [he, hf] at ha; cases ha
  have ha' : ctRead (ctWrite t sym n) a = some c := by rw [ctRead_ctWrite_other t n hne, ha]
  have hn : ctRead (ctWrite t sym n) sym = some n := ctRead_ctWrite_same t sym n
  exact ⟨h a sym c n ha' hn hne, h sym a n c hn ha' hne.symm⟩

/-- A conflict in trie terms: a leaf at or before the end of `n`, or a node at its end (R61). -/
theorem conflicts_iff_leaf_or_node {t : CodeTable} {n : Bits} (hn : n ≠ []) :
    conflicts t n = true ↔ (∃ p, p <+: n ∧ isLeaf t p = true) ∨ isNode t n = true := by
  rw [conflicts_iff, isNode_iff]
  constructor
  · rintro ⟨a, c, ha, hc | hc⟩
    · exact .inl ⟨c, hc, isLeaf_iff.2 ⟨a, ha⟩⟩
    · exact .inr (.inr ⟨a, c, ha, hc⟩)
  · rintro (⟨p, hp, hl⟩ | hnil | ⟨a, c, ha, hc⟩)
    · obtain ⟨a, ha⟩ := isLeaf_iff.1 hl
      exact ⟨a, p, ha, .inl hp⟩
    · exact absurd hnil hn
    · exact ⟨a, c, ha, .inr hc⟩

/-- Settles O21. -/
theorem conflictsDecidesPrefixFreedom : Obligations.ConflictsDecidesPrefixFreedom :=
  ⟨fun _ _ => conflicts_iff,
    fun _ _ _ h hf => ⟨conflicts_eq_false_of_prefixFree_ctWrite hf, h.ctWrite⟩,
    fun _ _ => conflicts_iff_leaf_or_node⟩

theorem not_isLeaf_nil {t : CodeTable} (h : CodeLengthsLegal t) : isLeaf t [] ≠ true := fun hl => by
  obtain ⟨a, ha⟩ := isLeaf_iff.1 hl
  exact absurd (h a [] ha).1 (by decide)

/-- Of two codes of a prefix-free table, one begins the other only where they are one (R34 item 1). -/
theorem PrefixFree.eq_of_prefix {t : CodeTable} (h : PrefixFree t) {a b : Symbol} {c d : Bits}
    (hc : ctRead t a = some c) (hd : ctRead t b = some d) (hcd : c <+: d) : c = d := by
  by_cases hab : a = b
  · subst hab
    exact Option.some.inj (hc.symm.trans hd)
  · exact absurd hcd (h a b c d hc hd hab)

/-- A leaf has no children (R60): a code through a child would begin with the leaf's code. -/
theorem PrefixFree.isNode_child_of_isLeaf {t : CodeTable} (h : PrefixFree t) {p : Bits} (hl : isLeaf t p = true)
    (b : Bool) : isNode t (p ++ [b]) = false := by
  obtain ⟨a, ha⟩ := isLeaf_iff.1 hl
  rw [← Bool.not_eq_true, isNode_iff]
  rintro (hnil | ⟨a', c, hc, hp⟩)
  · simp at hnil
  · obtain rfl : p = c := h.eq_of_prefix ha hc ((List.prefix_append p [b]).trans hp)
    simpa using hp.length_le

/-- Settles O29. -/
theorem leavesEndTheirPaths : Obligations.LeavesEndTheirPaths := by
  refine ⟨fun _ _ => isLeaf_iff, fun _ _ _ hv => symOf_eq_some_iff hv.prefixFree, fun t p hv hl => ?_⟩
  refine ⟨fun hnil => not_isLeaf_nil hv.lengths (hnil ▸ hl), hv.prefixFree.isNode_child_of_isLeaf hl, ?_⟩
  intro q hq hpq
  obtain ⟨a, ha⟩ := isLeaf_iff.1 hl
  obtain ⟨b, hb⟩ := isLeaf_iff.1 hq
  exact hv.prefixFree.eq_of_prefix ha hb hpq

end Sys2Proof.Machine
end

section
/-! PROOFS. What steps do to the code table (spec 20_memory.md R57, R66). -/

namespace Sys2Proof.Machine

/-- LDC and LDL write the entry of a symbol without a code, and no other command writes the table (R57). -/
theorem Performed.ctRead_of_some {i : Instr} {s t : State} (h : Performed i s t) {a : Symbol} {c : Bits}
    (ha : ctRead s.ct a = some c) : ctRead t.ct a = some c := by
  have other : ∀ {sym : Symbol} (n : Bits), ctRead s.ct sym = none → ctRead (ctWrite s.ct sym n) a = some c := by
    intro sym n hf
    have hne : a ≠ sym := fun he => by rw [he, hf] at ha; cases ha
    rw [ctRead_ctWrite_other s.ct n hne, ha]
  cases h with
  | ldc sym _ _ _ _ hf _ ht => subst ht; exact other s.stg hf
  | ldl sym _ code _ _ _ _ hf _ _ ht => subst ht; exact other code hf
  | cbit _ _ _ _ _ ht | sealTable _ _ _ ht | pushFirst _ _ _ _ ht | pushNext _ _ _ _ _ _ _ _ _ ht
  | finEmpty _ _ _ _ ht | finLast _ _ _ _ _ _ _ _ ht => subst ht; exact ha

/-- Outside phase LOAD no command writes the table (R66). -/
theorem Performed.ct_of_phase_ne_load {i : Instr} {s t : State} (h : Performed i s t) (hp : s.phase ≠ .load) :
    t.ct = s.ct := by
  cases h with
  | cbit _ _ hl | ldc _ _ hl | ldl _ _ _ _ hl | sealTable _ hl => exact absurd hl hp
  | pushFirst _ _ _ _ ht | pushNext _ _ _ _ _ _ _ _ _ ht | finEmpty _ _ _ _ ht
  | finLast _ _ _ _ _ _ _ _ ht => subst ht; rfl

/-- Settles O23, effect by effect. -/
theorem tableEntryIsWrittenOnce : Obligations.TableEntryIsWrittenOnce := by
  intro s t a c h hrun ha
  cases step_effect h with
  | kept _ ht | illegal _ _ ht => subst ht; exact ha
  | restarted _ _ _ he _ => rw [he] at hrun; cases hrun
  | performed _ _ _ _ _ hx => exact hx.ctRead_of_some ha
  | faulted _ _ _ _ _ _ hx => rw [hx.table_frame.2.1]; exact ha

theorem step_ct_of_phase_ne_load {s t : State} (h : step s = .next t) (hrun : nextEndsRun s = false)
    (hp : s.phase ≠ .load) : t.ct = s.ct := by
  cases step_effect h with
  | kept _ ht | illegal _ _ ht => subst ht; rfl
  | restarted _ _ _ he _ => rw [he] at hrun; cases hrun
  | performed _ _ _ _ _ hx => exact hx.ct_of_phase_ne_load hp
  | faulted _ _ _ _ _ _ hx => exact hx.table_frame.2.1

/-- Settles O24: the first clause effect by effect, the second by the table `Allowed` of R100. -/
theorem tableIsFixedAfterSeal : Obligations.TableIsFixedAfterSeal := by
  refine ⟨fun _ _ => step_ct_of_phase_ne_load, fun s i hp hi => ?_⟩
  have hnf : s.phase ≠ .fault := by rcases hp with hp | hp <;> simp [hp]
  have hnl : (s.phase == .load) = false := by rcases hp with hp | hp <;> simp [hp]
  rcases hi with ⟨b, rfl⟩ | ⟨sym, rfl⟩ | ⟨sym, len, rfl⟩
  all_goals exact guarded_seq hnf (by simp [allowed, hnl])

end Sys2Proof.Machine
end

section
/-! PROOFS. The padding bits (spec 20_memory.md R54, 42_bit_unpacker.md R143): the walker reads the bits it is fed and
never the holding register. -/

namespace Sys2Proof.Machine

/-- The state with another holding register. -/
def withHold (o : Option Byte) (s : State) : State := { s with hold := o }

/-- The state a block ended in, either way, changed by `f`. -/
def Flow.map (f : State → State) : Flow → Flow
  | .going s => .going (f s)
  | .raised s => .raised (f s)

theorem bitStep_withHold (b : Bool) (o : Option Byte) (s : State) :
    bitStep b (withHold o s) = (bitStep b s).map (withHold o) := by
  show bitStep b { s with hold := o } = _
  cases hn : isNode s.ct (s.cur ++ [b]) with
  | false => simp [bitStep, hn, Flow.map, withHold, raise]
  | true =>
    cases hs : symOf s.ct (s.cur ++ [b]) <;> simp [bitStep, hn, hs, Flow.map, withHold, emit, countBit]

theorem feedBits_withHold (bs : Bits) (o : Option Byte) (s : State) :
    feedBits bs (withHold o s) = (feedBits bs s).map (withHold o) := by
  induction bs generalizing s with
  | nil => rfl
  | cons b rest ih =>
    rw [feedBits_cons, feedBits_cons, bitStep_withHold]
    cases bitStep b s with
    | going u => exact ih u
    | raised u => rfl

/-- Bit steps leave the holding register. -/
theorem feedBits_hold (bs : Bits) (s : State) : (feedBits bs s).state.hold = s.hold := by
  rcases feedBits_effect bs s with ⟨_, _, hf, _⟩ | ⟨_, _, _, hf, _⟩ <;> rw [hf] <;> rfl

/-- How FIN ends after its release (R143): a fault of the walker keeps the byte, else it is gone and the run ends. -/
def finEnd : Flow → State
  | .going u => finish (withHold none u)
  | .raised u => u

/-- FIN with a byte held releases its meaningful bits (R143). -/
theorem execFin_of_held {s : State} {pad : BitVec 8} {h : Byte} (hp : s.phase = .run) (hh : s.hold = some h)
    (hpad : pad.toNat ≤ 7) :
    exec (.fin pad) s = .next (finEnd (feed h (Config.byteW - pad.toNat) s)) := by
  have hbody : exec (.fin pad) s = finBody pad s := guarded_body (by simp [hp]) (by simp [allowed, hp])
  rw [hbody, finBody, if_neg (Nat.not_lt.2 hpad), hh]
  cases hf : feed h (Config.byteW - pad.toNat) s <;> simp only [hf, finEnd, withHold]

/-- Another byte held shows after FIN where the walker's fault has kept it, and nowhere else. -/
theorem finEnd_map_withHold {f : Flow} {h : Byte} (hf : f.state.hold = some h) (h' : Byte) :
    finEnd (f.map (withHold (some h'))) = withHold ((finEnd f).hold.map fun _ => h') (finEnd f) := by
  cases f with
  | raised u =>
    have hu : u.hold = some h := hf
    simp [finEnd, Flow.map, hu]
  | going u =>
    show finish (withHold none u) =
      withHold ((finish (withHold none u)).hold.map fun _ => h') (finish (withHold none u))
    rcases finish_cases (withHold none u) with ⟨_, hd⟩ | ⟨_, hd⟩ <;> rw [hd] <;> rfl

/-- Settles O38: FIN feeds the meaningful bits alone, and another byte held makes no difference to the walker. -/
theorem paddingBitsHaveNoEffect : Obligations.PaddingBitsHaveNoEffect := by
  intro s t pad h h' hp hh hpad hbits hx
  rw [execFin_of_held hp hh hpad] at hx
  cases hx
  have hfeed : feed h' (Config.byteW - pad.toNat) (withHold (some h') s) =
      (feed h (Config.byteW - pad.toNat) s).map (withHold (some h')) := by
    rw [feed, ← hbits]
    exact feedBits_withHold _ _ s
  have hheld : (feed h (Config.byteW - pad.toNat) s).state.hold = some h := (feedBits_hold _ s).trans hh
  have hs' : exec (.fin pad) (withHold (some h') s) = _ := execFin_of_held hp rfl hpad
  rw [hfeed, finEnd_map_withHold hheld] at hs'
  exact hs'

end Sys2Proof.Machine
end

section
/-! PROOFS. The word of PUSH is read back (spec 30_encoding.md R76 to R79). -/

namespace Sys2Proof

/-- Two rows that admit one word agree on the bits that both masks show (R78). -/
theorem pattern_and_mask_of_masked {w m m' p p' : Word} (h : w &&& m = p) (h' : w &&& m' = p') :
    p &&& m' = p' &&& m := by
  rw [← h, ← h', BitVec.and_assoc, BitVec.and_assoc, BitVec.and_comm m]

/-- A word of the row of PUSH is read by that row alone (R78, R79). -/
theorem decode_of_push_row {w : Word} (h : w &&& 0xFFFFFF00 = 0x20000000) : decode w = .ok (.push (fieldA w)) := by
  have other : ∀ {m p : Word}, p &&& 0xFFFFFF00 ≠ 0x20000000 &&& m → w &&& m ≠ p := fun hne hw =>
    hne (pattern_and_mask_of_masked hw h)
  have word : ∀ {p : Word}, p &&& 0xFFFFFF00 ≠ 0x20000000 → w ≠ p := fun hne hw => hne (hw ▸ h)
  rw [decode, if_neg (word (by decide)), if_neg (word (by decide)), if_neg (other (by decide)),
    if_neg (other (by decide)), if_neg (other (by decide)), if_neg (word (by decide)), if_pos h]

theorem fieldA_encode_push (byte : Byte) : fieldA (encode (.push byte)) = byte := by
  simp [fieldA, encode, BitVec.extractLsb'_or]

theorem decode_encode_push (byte : Byte) : decode (encode (.push byte)) = .ok (.push byte) := by
  have h : encode (.push byte) &&& 0xFFFFFF00 = 0x20000000 :=
    (Laws.WordForm.formatB_masked 0x20 byte).trans (by decide)
  rw [decode_of_push_row h, fieldA_encode_push]

end Sys2Proof
end

section
/-! PROOFS. A run of PUSH commands (spec 10_state.md R34 item 11, 20_memory.md R67): every byte pushed has reached the
walker or is held. -/

namespace Sys2Proof.Machine

/-- The first step of a run that answers a next state. -/
theorem exists_step_of_run_succ {M : Host.Core} {k : Nat} {s t : M.State} (h : M.run (k + 1) s = .next t) :
    ∃ u, M.step s = .next u ∧ M.run k u = .next t := by
  unfold Host.Core.run at h
  split at h
  · next u hu => exact ⟨u, hu, h⟩
  · cases h
  · cases h

/-! ### The inputs under a command -/

theorem Performed.inputs_eq {i : Instr} {s t : State} (h : Performed i s t) : t.inputs = s.inputs := by
  cases h <;> next ht => subst ht; rfl

theorem Faulted.inputs_eq {i : Instr} {s t : State} (h : Faulted i s t) : t.inputs = s.inputs := by
  cases h <;> next ht => subst ht; rfl

/-- A command takes no input of the host (R65). -/
theorem exec_inputs {i : Instr} {s t : State} (h : exec i s = .next t) : t.inputs = s.inputs := by
  rcases exec_cases h with ⟨rfl, _⟩ | ⟨_, rfl⟩ | ⟨_, hx | hx⟩
  · rfl
  · rfl
  · exact hx.inputs_eq
  · exact hx.inputs_eq

/-! ### Bytes pushed -/

/-- The bits of the payload taken so far: those consumed and the eight of a byte held. -/
def bitsTaken (s : State) : Count := s.nbits + if s.hold.isSome then 8 else 0

/-- A PUSH after which the run goes on has taken and held its byte (R141). -/
theorem execPush_of_phase_run {s t : State} {byte : Byte} (h : exec (.push byte) s = .next t) (ht : t.phase = .run) :
    t.hold = some byte ∧ bitsTaken t = bitsTaken s + 8 ∧ s.phase = .run := by
  rcases exec_cases h with ⟨rfl, hi | ⟨hp, _⟩⟩ | ⟨hi, _⟩ | ⟨_, hx | hx⟩
  · cases hi
  · cases hp.symm.trans ht
  · cases hi
  · cases hx with
    | cbit _ hi | ldc _ hi | ldl _ _ _ hi | sealTable hi | finEmpty hi | finLast _ _ _ hi => cases hi
    | pushFirst _ hi hp hh hd =>
      cases hi
      subst hd
      exact ⟨rfl, by simp [bitsTaken, hh], hp⟩
    | pushNext _ h e p hi hp hh _ _ hd =>
      cases hi
      subst hd
      exact ⟨rfl, by simp [bitsTaken, hh, walked], hp⟩
  · cases hx.phase_cause.1.symm.trans ht

/-- The inputs by which the host pushes some bytes. -/
def pushInputs (bytes : List Byte) : List HostInput := bytes.map fun x => .command (encode (.push x))

/-- A run of PUSH commands after which the run goes on (R34 item 11). -/
theorem run_pushes {bytes : List Byte} {s t : State} {rest : List HostInput}
    (hi : s.inputs = pushInputs bytes ++ rest) (h : Host.Core.run core bytes.length s = .next t)
    (ht : t.phase = .run) :
    s.phase = .run ∧ t.hold = bytes.getLast?.or s.hold ∧
      bitsTaken t = bitsTaken s + BitVec.ofNat 64 (8 * bytes.length) := by
  induction bytes generalizing s with
  | nil =>
    cases h
    exact ⟨ht, by simp, by simp⟩
  | cons b bytes ih =>
    obtain ⟨u, hu, hrun⟩ := exists_step_of_run_succ h
    have hx : exec (.push b) { s with inputs := pushInputs bytes ++ rest } = .next u :=
      (step_of_decode hi (decode_encode_push b)).symm.trans hu
    obtain ⟨hur, hhold, htaken⟩ := ih (exec_inputs hx) hrun
    obtain ⟨hh, htk, hp⟩ := execPush_of_phase_run hx hur
    refine ⟨hp, ?_, ?_⟩
    · rw [hhold, hh, List.getLast?_cons]
      cases bytes.getLast? <;> rfl
    · rw [htaken, htk, List.length_cons, Nat.mul_add, Nat.add_comm (8 * _), BitVec.ofNat_add, ← BitVec.add_assoc]
      rfl

/-- Settles O39: of the bits taken, all but those of the byte held have been consumed. -/
theorem pushesHoldTheLastByte : Obligations.PushesHoldTheLastByte := by
  intro s t bytes byte _ hh h ht
  obtain ⟨_, hhold, htaken⟩ := run_pushes (bytes := bytes ++ [byte]) (rest := s.inputs)
    (s := offerAll ((bytes ++ [byte]).map fun x => encode (.push x)) s) (by simp [offerAll, pushInputs])
    (by rw [runWords, List.length_map] at h; exact h) ht
  have hheld : t.hold = some byte := by simpa using hhold
  refine ⟨?_, hheld⟩
  have : t.nbits + 8 = s.nbits + BitVec.ofNat 64 (8 * bytes.length) + 8 := by
    simpa [bitsTaken, hheld, offerAll, hh, Nat.mul_add, BitVec.ofNat_add, BitVec.add_assoc] using htaken
  exact (BitVec.add_left_inj _).1 this

end Sys2Proof.Machine
end

section
/-! PROOFS. The decoder is the opcode map, and it reads back every command (spec 30_encoding.md R76 to R80). -/

namespace Sys2Proof

/-! ### The rows of the opcode map -/

/-- Two rows of the opcode map that agree on the bits both masks show are one row. -/
theorem opcodeMap_eq_of_agree :
    ∀ r ∈ opcodeMap, ∀ r' ∈ opcodeMap, r.pattern &&& r'.mask = r'.pattern &&& r.mask → r = r' := by decide

/-- No word is of two rows (R78). -/
theorem opcodeMap_disjoint {w : Word} {r r' : OpRow} (hr : r ∈ opcodeMap) (hr' : r' ∈ opcodeMap)
    (h : w &&& r.mask = r.pattern) (h' : w &&& r'.mask = r'.pattern) : r = r' :=
  opcodeMap_eq_of_agree r hr r' hr' (pattern_and_mask_of_masked h h')

/-- The command that a row reads from a word, its operands the fields of R77. -/
def OpRow.command (r : OpRow) (w : Word) : Option Instr :=
  match r.mnemonic with
  | "NOP" => some .nop
  | "CLR" => some .clr
  | "CBIT" => some (.cbit (fieldB w))
  | "LDC" => some (.ldc (fieldA w))
  | "LDL" => some (.ldl (fieldSym w) (fieldA w))
  | "SEAL" => some .sealTable
  | "PUSH" => some (.push (fieldA w))
  | "FIN" => some (.fin (fieldA w))
  | _ => none

theorem mnemonic_of_command {r : OpRow} {w : Word} {i : Instr} (h : r.command w = some i) :
    i.mnemonic = r.mnemonic := by
  unfold OpRow.command at h
  split at h <;> cases h <;> exact Eq.symm ‹_›

/-! ### The decoder and the rows -/

/-- A command decoded is what the row of its word reads (R79). -/
theorem exists_row_of_decode {w : Word} {i : Instr} (h : decode w = .ok i) :
    ∃ r ∈ opcodeMap, w &&& r.mask = r.pattern ∧ r.command w = some i := by
  rcases decode_cases h with ⟨rfl, rfl⟩ | ⟨rfl, rfl⟩ | ⟨rfl, hw⟩ | ⟨rfl, hw⟩ | ⟨rfl, hw⟩ | ⟨rfl, rfl⟩ | ⟨rfl, hw⟩ |
    ⟨rfl, hw⟩
  · exact ⟨⟨"NOP", 0xFFFFFFFF, 0x00000000⟩, by decide, by decide, rfl⟩
  · exact ⟨⟨"CLR", 0xFFFFFFFF, 0x01000000⟩, by decide, by decide, rfl⟩
  · exact ⟨⟨"CBIT", 0xFFFFFFFE, 0x10000000⟩, by decide, hw, rfl⟩
  · exact ⟨⟨"LDC", 0xFFFFFF00, 0x11000000⟩, by decide, hw, rfl⟩
  · exact ⟨⟨"LDL", 0xFFFF0000, 0x12000000⟩, by decide, hw, rfl⟩
  · exact ⟨⟨"SEAL", 0xFFFFFFFF, 0x13000000⟩, by decide, by decide, rfl⟩
  · exact ⟨⟨"PUSH", 0xFFFFFF00, 0x20000000⟩, by decide, hw, rfl⟩
  · exact ⟨⟨"FIN", 0xFFFFFF00, 0x21000000⟩, by decide, hw, rfl⟩

/-- A word that does not decode is of no row (R80). -/
theorem not_masked_of_decode_error {w : Word} {e : Reject} (h : decode w = .error e) :
    ∀ r ∈ opcodeMap, w &&& r.mask ≠ r.pattern := by
  have hfull : w &&& 0xFFFFFFFF = w := BitVec.and_allOnes
  unfold decode at h
  split_ifs at h
  all_goals
    simp only [opcodeMap, List.forall_mem_cons, List.not_mem_nil, ne_eq, not_false_eq_true, false_imp_iff,
      implies_true, and_true, *]

/-- A word of no row does not decode (R80). -/
theorem decode_error_of_not_masked {w : Word} (h : ∀ r ∈ opcodeMap, w &&& r.mask ≠ r.pattern) :
    ∃ e, decode w = .error e := by
  cases hd : decode w with
  | error e => exact ⟨e, rfl⟩
  | ok i =>
    obtain ⟨r, hr, hw, _⟩ := exists_row_of_decode hd
    exact absurd hw (h r hr)

/-- A word of a row decodes to what the row reads (R78, R79). -/
theorem decode_of_row {w : Word} {r : OpRow} (hr : r ∈ opcodeMap) (hw : w &&& r.mask = r.pattern) :
    ∃ i, decode w = .ok i ∧ r.command w = some i := by
  cases hd : decode w with
  | error e => exact absurd hw (not_masked_of_decode_error hd r hr)
  | ok i =>
    obtain ⟨r', hr', hw', hi⟩ := exists_row_of_decode hd
    exact ⟨i, rfl, opcodeMap_disjoint hr' hr hw' hw ▸ hi⟩

/-- Settles O3: the rows are disjoint, and a word decodes exactly where a row admits it. -/
theorem decodeAgreesWithOpcodeMap : Obligations.DecodeAgreesWithOpcodeMap := by
  refine ⟨fun _ _ _ => opcodeMap_disjoint, fun w r hr hw => ?_, fun _ => decode_error_of_not_masked⟩
  obtain ⟨i, hd, hi⟩ := decode_of_row hr hw
  exact ⟨i, hd, mnemonic_of_command hi⟩

/-! ### Decode after encode -/

theorem wordForm_all (i : Instr) : Laws.WordForm.Statement i := by
  cases i with
  | nop => exact Laws.WordForm.nop
  | clr => exact Laws.WordForm.clr
  | cbit b => exact Laws.WordForm.cbit b
  | ldc sym => exact Laws.WordForm.ldc sym
  | ldl sym len => exact Laws.WordForm.ldl sym len
  | sealTable => exact Laws.WordForm.sealTable
  | push byte => exact Laws.WordForm.push byte
  | fin pad => exact Laws.WordForm.fin pad

/-- The fields of the word made for a command are its operands (R76, R77). -/
theorem command_encode {r : OpRow} {i : Instr} (h : r.mnemonic = i.mnemonic) : r.command (encode i) = some i := by
  unfold OpRow.command
  rw [h]
  cases i with
  | nop | clr | sealTable => rfl
  | cbit b => cases b <;> rfl
  | ldc a | push a | fin a => simp [Instr.mnemonic, encode, fieldA, BitVec.extractLsb'_or]
  | ldl sym len => simp [Instr.mnemonic, encode, fieldA, fieldSym, BitVec.extractLsb'_or]

/-- The word made for a command is of the command's row, which reads the operands back. -/
theorem decode_encode (i : Instr) : decode (encode i) = .ok i := by
  obtain ⟨r, hr, hm, hw⟩ := wordForm_all i
  obtain ⟨j, hd, hj⟩ := decode_of_row hr hw
  obtain rfl : i = j := Option.some.inj ((command_encode hm).symm.trans hj)
  exact hd

/-- Settles O1. -/
theorem decodeOfEncodeIsTheCommand : Obligations.DecodeOfEncodeIsTheCommand := fun i _ => decode_encode i

/-! ### Encode after decode -/

/-- A word is what a mask shows of it and what the mask hides. -/
theorem eq_or_of_masked {w m p : Word} (h : w &&& m = p) : w = p ||| w &&& ~~~m := by
  rw [← h, ← BitVec.and_or_distrib_left, BitVec.or_not_self, BitVec.and_allOnes]

/-- A word of format T is its opcode byte and its bit (R76). -/
theorem eq_place_of_formatT {w : Word} {op : BitVec 8} (h : w &&& 0xFFFFFFFE = place op 24) :
    w = place op 24 ||| place (BitVec.ofBool (fieldB w)) 0 := by
  have hfield : w &&& ~~~0xFFFFFFFE = place (BitVec.ofBool (fieldB w)) 0 := by
    ext i hi
    rw [BitVec.getElem_and, getElem_place]
    interval_cases i <;> simp [fieldB]
  rw [← hfield]
  exact eq_or_of_masked h

/-- A word of format P is its opcode byte and its two operands (R76). -/
theorem eq_place_of_formatP {w : Word} {op : BitVec 8} (h : w &&& 0xFFFF0000 = place op 24) :
    w = place op 24 ||| place (fieldSym w) 8 ||| place (fieldA w) 0 := by
  have hfields : w &&& ~~~0xFFFF0000 = place (fieldSym w) 8 ||| place (fieldA w) 0 := by
    ext i hi
    rw [BitVec.getElem_and, BitVec.getElem_or, getElem_place, getElem_place, getLsbD_fieldSym, getLsbD_fieldA]
    interval_cases i <;> simp
  rw [BitVec.or_assoc, ← hfields]
  exact eq_or_of_masked h

/-- Settles O2, row by row: the mask fixes every bit of the word outside the operand fields. -/
theorem encodeOfDecodeIsTheWord : Obligations.EncodeOfDecodeIsTheWord := by
  intro w i h
  symm
  rcases decode_cases h with ⟨rfl, rfl⟩ | ⟨rfl, rfl⟩ | ⟨rfl, hw⟩ | ⟨rfl, hw⟩ | ⟨rfl, hw⟩ | ⟨rfl, rfl⟩ | ⟨rfl, hw⟩ |
    ⟨rfl, hw⟩
  · decide
  · decide
  · exact eq_place_of_formatT (hw.trans (by decide))
  · exact eq_place_of_formatB (hw.trans (by decide))
  · exact eq_place_of_formatP (hw.trans (by decide))
  · decide
  · exact eq_place_of_formatB (hw.trans (by decide))
  · exact eq_place_of_formatB (hw.trans (by decide))

/-- Settles O4. -/
theorem wordsOfTheFormatsDecode : Obligations.WordsOfTheFormatsDecode :=
  ⟨rfl, rfl, rfl, rfl, rfl, rfl, rfl, rfl, rfl, rfl, rfl, rfl, rfl, rfl⟩

end Sys2Proof
end

section
/-! PROOFS. The words of the assembler lines (spec 30_encoding.md R86, R87). -/

namespace Sys2Proof

/-! ### Words as numbers -/

/-- A number that fits its field, placed in a word. -/
theorem place_ofNat {n v : Nat} (lo : Nat) (h : v < 2 ^ n) :
    place (BitVec.ofNat n v) lo = BitVec.ofNat 32 (v * 2 ^ lo) := by
  apply BitVec.eq_of_toNat_eq
  simp [place, Nat.mod_eq_of_lt h, Nat.shiftLeft_eq]

/-- A field and what lies below it add up. -/
theorem place_or_eq_add {n : Nat} (v : BitVec n) {lo : Nat} {x : Word} (h : x.toNat < 2 ^ lo) :
    place v lo ||| x = place v lo + x := by
  refine (BitVec.add_eq_or_of_and_eq_zero _ _ ?_).symm
  ext i hi
  rw [BitVec.getElem_and, getElem_place, BitVec.getElem_zero, ← BitVec.getLsbD_eq_getElem]
  by_cases hlo : lo ≤ i
  · have hx : x.getLsbD i = false := Nat.testBit_lt_two_pow (h.trans_le (Nat.pow_le_pow_right (by decide) hlo))
    simp [hx]
  · simp [hlo]

/-- The word of format B as a number (R76). -/
theorem formatB_ofNat (op : BitVec 8) {a : Nat} (h : a ≤ 255) :
    place op 24 ||| place (BitVec.ofNat 8 a) 0 = BitVec.ofNat 32 (op.toNat * 2 ^ 24 + a) := by
  have ha : place (BitVec.ofNat 8 a) 0 = BitVec.ofNat 32 a := by
    rw [place_ofNat 0 (by omega), Nat.pow_zero, Nat.mul_one]
  have hop : place op 24 = BitVec.ofNat 32 (op.toNat * 2 ^ 24) := by
    rw [← place_ofNat 24 op.isLt, BitVec.ofNat_toNat, BitVec.setWidth_eq]
  rw [ha, place_or_eq_add, hop, BitVec.ofNat_add]
  rw [BitVec.toNat_ofNat]
  omega

theorem encode_ldc_ofNat {sym : Nat} (h : sym ≤ 255) :
    encode (.ldc (BitVec.ofNat 8 sym)) = BitVec.ofNat 32 (0x11000000 + sym) := formatB_ofNat 0x11 h

theorem encode_push_ofNat {byte : Nat} (h : byte ≤ 255) :
    encode (.push (BitVec.ofNat 8 byte)) = BitVec.ofNat 32 (0x20000000 + byte) := formatB_ofNat 0x20 h

theorem encode_fin_ofNat {pad : Nat} (h : pad ≤ 255) :
    encode (.fin (BitVec.ofNat 8 pad)) = BitVec.ofNat 32 (0x21000000 + pad) := formatB_ofNat 0x21 h

theorem encode_cbit (b : Bool) : encode (.cbit b) = BitVec.ofNat 32 (0x10000000 + b.toNat) := by
  cases b <;> rfl

/-- The word of format P as a number (R76). -/
theorem encode_ldl_ofNat {sym len : Nat} (hs : sym ≤ 255) (hl : len ≤ 255) :
    encode (.ldl (BitVec.ofNat 8 sym) (BitVec.ofNat 8 len)) = BitVec.ofNat 32 (0x12000000 + sym * 256 + len) := by
  have hfields : place (BitVec.ofNat 8 sym) 8 ||| place (BitVec.ofNat 8 len) 0 = BitVec.ofNat 32 (sym * 256 + len) := by
    rw [place_ofNat 0 (by omega), Nat.pow_zero, Nat.mul_one, place_or_eq_add, place_ofNat 8 (by omega),
      BitVec.ofNat_add]
    · rfl
    · rw [BitVec.toNat_ofNat]
      omega
  have hop : place 0x12#8 24 = BitVec.ofNat 32 0x12000000 := rfl
  rw [encode, BitVec.or_assoc, hfields, place_or_eq_add, hop, Nat.add_assoc, ← BitVec.ofNat_add]
  rw [BitVec.toNat_ofNat]
  omega

/-! ### The lines -/

/-- A line gives words exactly where its operands fit (R86). -/
theorem assemble_eq_ite {l : AsmLine} {P : Prop} [Decidable P] {ws : List Word} (hfits : l.wellFormed = true ↔ P)
    (hwords : P → l.expand.map encode = ws) : assemble l = if P then some ws else none := by
  unfold assemble
  by_cases hP : P
  · rw [if_pos hP, if_pos (hfits.2 hP), hwords hP]
  · rw [if_neg hP, if_neg (mt hfits.1 hP)]

/-- Settles O5, line by line: when the operands fit, and the words of the commands the line stands for. -/
theorem assemblerGivesTheWords : Obligations.AssemblerGivesTheWords := by
  refine ⟨rfl, rfl, rfl, fun b => ?_, fun sym => ?_, fun sym len => ?_, fun byte => ?_, fun pad => ?_,
    fun sym code => ?_, fun bytes => ?_, fun pad => rfl⟩
  · refine assemble_eq_ite decide_eq_true_iff fun hb => ?_
    interval_cases b <;> rfl
  · exact assemble_eq_ite decide_eq_true_iff fun h => by simp [AsmLine.expand, encode_ldc_ofNat h]
  · exact assemble_eq_ite (by simp [AsmLine.wellFormed]) fun h => by simp [AsmLine.expand, encode_ldl_ofNat h.1 h.2]
  · exact assemble_eq_ite decide_eq_true_iff fun h => by simp [AsmLine.expand, encode_push_ofNat h]
  · exact assemble_eq_ite decide_eq_true_iff fun h => by simp [AsmLine.expand, encode_fin_ofNat h]
  · exact assemble_eq_ite (by simp [AsmLine.wellFormed, and_assoc]) fun h => by
      simp [AsmLine.expand, encode_cbit, encode_ldc_ofNat h.1]
  · refine assemble_eq_ite (by simp [AsmLine.wellFormed]) fun h => ?_
    rw [AsmLine.expand, List.map_map]
    exact List.map_congr_left fun x hx => encode_push_ofNat (h x hx)

end Sys2Proof
end

section
/-! PROOFS. An illegal word (spec 30_encoding.md R80, 60_exceptions.md R183). -/

namespace Sys2Proof.Machine

/-- A word that does not decode is taken off the channel and performed as an illegal one (R65, R100). -/
theorem step_of_decode_error {s : State} {w : Word} {rest : List HostInput} {e : Reject}
    (hi : s.inputs = .command w :: rest) (hd : decode w = .error e) :
    step s = .next (illegalWord { s with inputs := rest }) := by
  rw [step, hi]
  show performWord w { s with inputs := rest } = _
  rw [performWord, hd]

/-- Settles O7: a word of no row does not decode. -/
theorem illegalWordRaisesIllcmd : Obligations.IllegalWordRaisesIllcmd := by
  intro s w rest hi hw hp
  obtain ⟨e, hd⟩ := decode_error_of_not_masked hw
  have hraise : illegalWord { s with inputs := rest } = raise .illCmd { s with inputs := rest } := if_neg hp
  rw [step_of_decode_error hi hd, hraise]
  rfl

end Sys2Proof.Machine
end

section
/-! PROOFS. Tables loaded by LDCODE lines (spec 30_encoding.md R87, 41_table_load.md R111, R112): the CBITs of a line stage
its code, and the LDC writes the entry. -/

namespace Sys2Proof.Machine

/-! ### The two commands of a line -/

/-- CBIT with room in the staging register (R111). -/
theorem exec_cbit_of_room {s : State} (hp : s.phase = .load) (hm : s.mode ≠ .canon)
    (hl : s.stg.length ≠ Config.maxLen) (b : Bool) :
    exec (.cbit b) s = .next { s with stg := s.stg ++ [b], mode := .plain } :=
  (guarded_body (by simp [hp]) (by simp [allowed, hp, hm])).trans (if_neg hl)

/-- A symbol and a code that LDC takes: the symbol has no code yet, and the code conflicts with none (R112). -/
def Loadable (t : CodeTable) (e : Symbol × Bits) : Prop := ctRead t e.1 = none ∧ conflicts t e.2 = false

/-- LDC with a code staged that passes its tests (R112). -/
theorem exec_ldc_of_loadable {s : State} {sym : Symbol} (hp : s.phase = .load) (hm : s.mode ≠ .canon)
    (hs : s.stg ≠ []) (h : Loadable s.ct (sym, s.stg)) : exec (.ldc sym) s = .next (loadPlain sym s) := by
  obtain ⟨hf, hc⟩ := h
  have hbody : exec (.ldc sym) s = ldcBody sym s := guarded_body (by simp [hp]) (by simp [allowed, hp, hm])
  rw [hbody, ldcBody, if_neg hs, if_neg (by simp [hf]), if_neg (by simp [hc])]

/-- Every entry is loadable into an empty table. -/
theorem loadable_of_empty {t : CodeTable} (h : ∀ a, ctRead t a = none) (e : Symbol × Bits) : Loadable t e :=
  ⟨h e.1, conflicts_eq_false_iff.2 fun a c ha => by rw [h a] at ha; cases ha⟩

/-- An entry stays loadable when another one goes in before it that shares neither its symbol nor its path. -/
theorem Loadable.ctWrite {t : CodeTable} {e f : Symbol × Bits} (h : Loadable t f)
    (hef : e.1 ≠ f.1 ∧ ¬ e.2 <+: f.2 ∧ ¬ f.2 <+: e.2) : Loadable (ctWrite t e.1 e.2) f := by
  obtain ⟨hf, hc⟩ := h
  obtain ⟨hne, hpath⟩ := hef
  refine ⟨by rw [ctRead_ctWrite_other t e.2 hne.symm, hf], conflicts_eq_false_iff.2 fun a c ha => ?_⟩
  rw [ctRead_ctWrite] at ha
  split_ifs at ha
  · cases ha; exact hpath
  · exact conflicts_eq_false_iff.1 hc a c ha

/-! ### Runs of commands -/

/-- The inputs by which the host issues some commands. -/
def commandInputs (is : List Instr) : List HostInput := is.map fun i => .command (encode i)

theorem commandInputs_append (is js : List Instr) : commandInputs (is ++ js) = commandInputs is ++ commandInputs js :=
  List.map_append

/-- A run goes on from the state that its first step answers. -/
theorem run_succ_of_step {M : Host.Core} {s u : M.State} (h : M.step s = .next u) (k : Nat) :
    M.run (k + 1) s = M.run k u := by
  rw [Host.Core.run, h]

/-- A run whose first input is a command that answers a next state. -/
theorem run_succ_of_exec {s u : State} {i : Instr} {rest : List HostInput}
    (hi : s.inputs = .command (encode i) :: rest) (hx : exec i { s with inputs := rest } = .next u) (k : Nat) :
    Host.Core.run core (k + 1) s = Host.Core.run core k u :=
  run_succ_of_step (M := core) ((step_of_decode hi (decode_encode i)).trans hx) k

/-- CBIT commands stage their bits in order while there is room (R111). -/
theorem run_cbits {code : Bits} {s : State} {rest : List HostInput}
    (hi : s.inputs = commandInputs (code.map .cbit) ++ rest) (hp : s.phase = .load) (hm : s.mode ≠ .canon)
    (hl : s.stg.length + code.length ≤ Config.maxLen) :
    ∃ m, m ≠ .canon ∧ ∀ k, Host.Core.run core (code.length + k) s =
      Host.Core.run core k { s with inputs := rest, stg := s.stg ++ code, mode := m } := by
  induction code generalizing s with
  | nil =>
    obtain rfl : s.inputs = rest := hi
    exact ⟨s.mode, hm, fun k => by simp⟩
  | cons b code ih =>
    rw [List.length_cons] at hl
    have hx := exec_cbit_of_room (s := { s with inputs := commandInputs (code.map .cbit) ++ rest }) hp hm
      (show s.stg.length ≠ Config.maxLen by omega) b
    obtain ⟨m, hm', hrun⟩ := ih (s := { s with
      inputs := commandInputs (code.map .cbit) ++ rest, stg := s.stg ++ [b], mode := .plain }) rfl hp (by simp)
      (by simp; omega)
    refine ⟨m, hm', fun k => ?_⟩
    rw [List.length_cons, Nat.add_right_comm, run_succ_of_exec hi hx, hrun]
    simp

/-- The commands of the line `LDCODE sym, code` (R87). -/
def ldcodeCommands (e : Symbol × Bits) : List Instr := e.2.map .cbit ++ [.ldc e.1]

/-- An LDCODE line of a loadable entry writes that entry (R87, R112). -/
theorem run_ldcode {e : Symbol × Bits} {s : State} {rest : List HostInput}
    (hi : s.inputs = commandInputs (ldcodeCommands e) ++ rest) (hp : s.phase = .load) (hm : s.mode ≠ .canon)
    (hs : s.stg = []) (hl : 1 ≤ e.2.length ∧ e.2.length ≤ 255) (h : Loadable s.ct e) (k : Nat) :
    Host.Core.run core ((ldcodeCommands e).length + k) s =
      Host.Core.run core k { s with inputs := rest, ct := ctWrite s.ct e.1 e.2, mode := .plain } := by
  obtain ⟨sym, code⟩ := e
  rw [ldcodeCommands, commandInputs_append, List.append_assoc] at hi
  obtain ⟨m, hm', hrun⟩ := run_cbits hi hp hm (by simpa [hs] using hl.2)
  rw [hs, List.nil_append] at hrun
  have hne : code ≠ [] := List.length_pos_iff.1 hl.1
  have hx := exec_ldc_of_loadable (s := { s with inputs := rest, stg := code, mode := m }) hp hm' hne h
  have hlen : (ldcodeCommands (sym, code)).length + k = code.length + (k + 1) := by simp [ldcodeCommands]; omega
  rw [hlen, hrun, run_succ_of_exec rfl hx]
  simp [loadPlain, hs]

/-- LDCODE lines load their entries one by one: each is loadable into the table that those before it have left. -/
theorem run_ldcodes {entries : List (Symbol × Bits)} {s : State} {rest : List HostInput}
    (hi : s.inputs = commandInputs (entries.flatMap ldcodeCommands) ++ rest) (hp : s.phase = .load)
    (hm : s.mode ≠ .canon) (hs : s.stg = []) (hl : ∀ e ∈ entries, 1 ≤ e.2.length ∧ e.2.length ≤ 255)
    (h : ∀ e ∈ entries, Loadable s.ct e)
    (hpair : entries.Pairwise fun e f => e.1 ≠ f.1 ∧ ¬ e.2 <+: f.2 ∧ ¬ f.2 <+: e.2) :
    ∃ t m, Host.Core.run core (entries.flatMap ldcodeCommands).length s =
        .next { s with inputs := rest, ct := t, mode := m } ∧
      ∀ a c, ctRead t a = some c ↔ ctRead s.ct a = some c ∨ (a, c) ∈ entries := by
  induction entries generalizing s with
  | nil =>
    obtain rfl : s.inputs = rest := hi
    exact ⟨s.ct, s.mode, rfl, by simp⟩
  | cons e entries ih =>
    obtain ⟨hle, hl⟩ := List.forall_mem_cons.1 hl
    obtain ⟨he, h⟩ := List.forall_mem_cons.1 h
    obtain ⟨hpe, hpair⟩ := List.pairwise_cons.1 hpair
    rw [List.flatMap_cons, commandInputs_append, List.append_assoc] at hi
    obtain ⟨t, m, hrun, hread⟩ := ih (s := { s with
      inputs := commandInputs (entries.flatMap ldcodeCommands) ++ rest, ct := ctWrite s.ct e.1 e.2, mode := .plain })
      rfl hp (by simp) hs hl (fun f hf => (h f hf).ctWrite (hpe f hf)) hpair
    refine ⟨t, m, ?_, fun a c => ?_⟩
    · rw [List.flatMap_cons, List.length_append, run_ldcode hi hp hm hs hle he, hrun]
    · rw [hread, ctRead_ctWrite, List.mem_cons]
      by_cases ha : a = e.1
      · subst ha
        simp [he.1, Prod.ext_iff, eq_comm]
      · simp [ha, Prod.ext_iff]

/-- Settles O26: from an empty table every entry is loadable. -/
theorem ldcodeLinesLoadAnyPlainTable : Obligations.LdcodeLinesLoadAnyPlainTable := by
  intro s entries hp hm hs hempty hl hpair
  have hwords : wordsOf (entries.map fun e => .ldcode e.1.toNat e.2) =
      (entries.flatMap ldcodeCommands).map encode := by
    simp [wordsOf, AsmLine.expand, ldcodeCommands, List.flatMap_map, List.map_flatMap]
  obtain ⟨t, m, hrun, hread⟩ := run_ldcodes (s := offerAll ((entries.flatMap ldcodeCommands).map encode) s)
    (rest := s.inputs) (by simp [offerAll, commandInputs]) hp hm hs hl (fun e _ => loadable_of_empty hempty e) hpair
  rw [runWords, hwords, List.length_map]
  exact ⟨_, hrun, fun a c => by rw [hread]; simp [offerAll, hempty], rfl⟩

end Sys2Proof.Machine
end

section
/-! PROOFS. The dispatch of a command (spec 40_control.md R100): the checks all commands but NOP and CLR stand behind, and
why a step always answers a next state (00_scope.md R5). -/

namespace Sys2Proof.Machine

/-! ### The dispatch checks -/

/-- "NOP and CLR are allowed everywhere"; every other command stands behind the checks (R100). -/
theorem exists_exec_eq_guarded {i : Instr} (hn : i ≠ .nop) (hc : i ≠ .clr) :
    ∃ body, ∀ s, exec i s = guarded i body s := by
  cases i with
  | nop => exact absurd rfl hn
  | clr => exact absurd rfl hc
  | cbit b => exact ⟨cbitBody b, fun _ => rfl⟩
  | ldc sym => exact ⟨ldcBody sym, fun _ => rfl⟩
  | ldl sym len => exact ⟨ldlBody sym len, fun _ => rfl⟩
  | sealTable => exact ⟨sealBody, fun _ => rfl⟩
  | push byte => exact ⟨pushBody byte, fun _ => rfl⟩
  | fin pad => exact ⟨finBody pad, fun _ => rfl⟩

/-- In phase FAULT a command other than CLR is dropped (R100, 60_exceptions.md R184). -/
theorem exec_of_phase_fault {s : State} {i : Instr} (hp : s.phase = .fault) (hc : i ≠ .clr) : exec i s = .next s := by
  by_cases hn : i = .nop
  · subst hn; rfl
  · obtain ⟨body, hexec⟩ := exists_exec_eq_guarded hn hc
    rw [hexec, guarded_dropped hp]

/-- A command that the table `Allowed` excludes raises SEQ (R100). -/
theorem exec_of_not_allowed {s : State} {i : Instr} (hp : s.phase ≠ .fault) (ha : allowed i s.phase s.mode = false) :
    exec i s = .next (raise .seq s) := by
  obtain ⟨body, hexec⟩ := exists_exec_eq_guarded (i := i) (by rintro rfl; cases ha) (by rintro rfl; cases ha)
  rw [hexec, guarded_seq hp ha]

/-- Settles O9, row by row of the table `Allowed`. -/
theorem disallowedCommandRaisesSeq : Obligations.DisallowedCommandRaisesSeq := by
  intro s hp
  have seq {i : Instr} (ha : allowed i s.phase s.mode = false) : exec i s = .next (raise .seq s) :=
    exec_of_not_allowed hp ha
  have notLoadOr {m : TableMode} (h : s.phase ≠ .load ∨ s.mode = m) : (s.phase == .load && s.mode != m) = false := by
    rcases h with h | h <;> simp [h]
  exact ⟨fun _ h => seq (notLoadOr h), fun _ h => seq (notLoadOr h), fun _ _ h => seq (notLoadOr h),
    fun h => seq (beq_false_of_ne h), fun _ h => seq (beq_false_of_ne h), fun _ h => seq (beq_false_of_ne h)⟩

/-! ### Progress -/

/-- The latest canonical entry has a code (R34 item 4). -/
theorem EngineInv.ctRead_last {s : State} (h : EngineInv s) {l : Symbol} (hl : s.last = some l) :
    ∃ c, ctRead s.ct l = some c := by
  by_cases hm : s.mode = .canon
  · obtain ⟨_, l', c, hl', hc⟩ := h.modeCanon hm
    cases hl.symm.trans hl'
    exact ⟨c, hc⟩
  · cases hl.symm.trans (h.lastOnlyCanon hm)

/-- The model's one stop needs a `last` without a code, which the invariants exclude. -/
theorem EngineInv.exec_next {s : State} (h : EngineInv s) (i : Instr) : ∃ t, exec i s = .next t := by
  cases hx : exec i s with
  | next t => exact ⟨t, rfl⟩
  | fault r =>
    obtain ⟨_, _, l, hl, hnone⟩ := exec_fault hx
    obtain ⟨c, hc⟩ := h.ctRead_last hl
    rw [hnone] at hc; cases hc
  | refused r => exact absurd hx (exec_not_refused i s r)

theorem performWord_of_decode {w : Word} {i : Instr} (hd : decode w = .ok i) (s : State) :
    performWord w s = exec i s := by
  rw [performWord, hd]

theorem performWord_of_decode_error {w : Word} {e : Reject} (hd : decode w = .error e) (s : State) :
    performWord w s = .next (illegalWord s) := by
  rw [performWord, hd]

theorem EngineInv.performWord_next {s : State} (h : EngineInv s) (w : Word) : ∃ t, performWord w s = .next t := by
  cases hd : decode w with
  | ok i => rw [performWord_of_decode hd]; exact h.exec_next i
  | error e => exact ⟨_, performWord_of_decode_error hd s⟩

theorem EngineInv.takeInput_next {s : State} (h : EngineInv s) (e : HostInput) : ∃ t, takeInput e s = .next t := by
  cases e with
  | command w => exact h.performWord_next w
  | reset => exact ⟨_, rfl⟩
  | resetDuring w => exact ⟨_, rfl⟩

theorem EngineInv.step_next {s : State} (h : EngineInv s) : ∃ t, step s = .next t := by
  cases hi : s.inputs with
  | nil => exact ⟨s, step_of_no_input hi⟩
  | cons e rest =>
    rw [step, hi]
    exact (h.with_record s.out rest s.resets).takeInput_next e

/-- Settles O45: the invariants exclude the model's stop, and the step keeps them. -/
theorem stepNeverStops : Obligations.StepNeverStops := by
  intro s h
  obtain ⟨t, ht⟩ := h.step_next
  exact ⟨t, ht, stepKeepsTheInvariants s t h ht⟩

end Sys2Proof.Machine
end

section
/-! PROOFS. The control commands NOP, CLR and SEAL (spec 40_control.md R101 to R103). -/

namespace Sys2Proof.Machine

theorem illegalWord_of_phase_ne_fault {s : State} (hp : s.phase ≠ .fault) : illegalWord s = raise .illCmd s :=
  if_neg hp

/-- Settles O10: 0x00000000 is read as NOP, and 0x00000001 has a must-be-zero bit. -/
theorem nopChangesNothing : Obligations.NopChangesNothing := by
  have hnop : decode 0x00000000 = .ok .nop := rfl
  have hill : decode 0x00000001 = .error .mustBeZeroBit := rfl
  refine ⟨fun s => ⟨rfl, performWord_of_decode hnop s⟩, fun s hp => ?_⟩
  rw [performWord_of_decode_error hill, illegalWord_of_phase_ne_fault hp]
  rfl

/-- After CLR STATUS reads as after reset: only ROOT is 1 (R42, R102). -/
theorem statusRead_clear (s : State) : statusRead (clear s) 0 = 0x00000200 :=
  calc statusRead (clear s) 0 = statusRead State.reset 0 := rfl
    _ = 0x00000200 := by decide

/-- Settles O11. -/
theorem clrGivesTheResetState : Obligations.ClrGivesTheResetState := by
  have hclr : decode 0x01000000 = .ok .clr := rfl
  have hill : decode 0x01000001 = .error .mustBeZeroBit := rfl
  refine ⟨fun s => ⟨clear s, rfl, performWord_of_decode hclr s, ?_⟩, rfl, fun _ _ => exec_of_phase_fault,
    performWord_of_decode_error hill⟩
  exact ⟨rfl, rfl, rfl, ctRead_nil, rfl, rfl, rfl, rfl, rfl, rfl, rfl, statusRead_clear s, rfl, rfl⟩

/-- In phase LOAD SEAL is allowed in every mode (R100). -/
theorem exec_sealTable_of_load {s : State} (hp : s.phase = .load) : exec .sealTable s = sealBody s :=
  guarded_body (by simp [hp]) (by simp [allowed, hp])

/-- Settles O12: the two branches of SEAL's pseudocode. -/
theorem sealOpensTheRun : Obligations.SealOpensTheRun := by
  intro s hp
  rw [exec_sealTable_of_load hp]
  exact ⟨fun hs => if_neg (not_not.2 hs), fun hs => if_pos hs⟩

end Sys2Proof.Machine
end

section
/-! PROOFS. The table-load commands CBIT and LDC (spec 41_table_load.md R111, R112, 60_exceptions.md R182). -/

namespace Sys2Proof.Machine

/-! ### Past the dispatch checks -/

/-- In phase LOAD, CBIT is performed unless the table is canonical (R100). -/
theorem exec_cbit_of_load {s : State} (hp : s.phase = .load) (hm : s.mode ≠ .canon) (b : Bool) :
    exec (.cbit b) s = cbitBody b s :=
  guarded_body (by simp [hp]) (by simp [allowed, hp, hm])

/-- In phase LOAD, LDC is performed unless the table is canonical (R100). -/
theorem exec_ldc_of_load {s : State} (hp : s.phase = .load) (hm : s.mode ≠ .canon) (sym : Symbol) :
    exec (.ldc sym) s = ldcBody sym s :=
  guarded_body (by simp [hp]) (by simp [allowed, hp, hm])

/-! ### CBIT -/

/-- Settles O13: the two branches of CBIT's pseudocode. -/
theorem cbitStagesItsBit : Obligations.CbitStagesItsBit := by
  intro s b hp hm
  refine ⟨fun hl => exec_cbit_of_room hp hm hl b, fun hl => ?_⟩
  rw [exec_cbit_of_load hp hm]
  exact if_pos hl

/-! ### LDC -/

/-- Settles O14: a symbol without a code and a staged code in conflict with none make an entry to load. -/
theorem ldcLoadsTheStagedCode : Obligations.LdcLoadsTheStagedCode := by
  intro s sym hp hm hs hf hc
  have hload : Loadable s.ct (sym, s.stg) := ⟨hf, conflicts_eq_false_iff.2 hc⟩
  exact ⟨loadPlain sym s, exec_ldc_of_loadable hp hm hs hload, ctRead_ctWrite s.ct sym s.stg, rfl⟩

/-- Settles O15: each test of LDC's pseudocode stands behind those before it. -/
theorem ldcFaultsInOrder : Obligations.LdcFaultsInOrder := by
  intro s sym hp hm
  rw [exec_ldc_of_load hp hm, ldcBody]
  refine ⟨fun hs => if_pos hs, fun hs hd => ?_, fun a c hs hf ha hpath => ?_⟩
  · rw [if_neg hs, if_pos (Option.isSome_iff_ne_none.2 hd)]
    rfl
  · have hc : conflicts s.ct s.stg = true := conflicts_iff.2 ⟨a, c, ha, hpath⟩
    rw [if_neg hs, if_neg (by simp [hf]), if_pos hc]
    rfl

end Sys2Proof.Machine
end

section
/-! PROOFS. The tests of LDL in their order, and the entry it loads where they pass (spec 41_table_load.md R113 to R115,
60_exceptions.md R182). -/

namespace Sys2Proof.Machine

/-- In phase LOAD, LDL is performed unless the table is plain (R100). -/
theorem exec_ldl_of_load {s : State} (hp : s.phase = .load) (hm : s.mode ≠ .plain) (sym : Symbol) (len : BitVec 8) :
    exec (.ldl sym len) s = ldlBody sym len s :=
  guarded_body (by simp [hp]) (by simp [allowed, hp, hm])

/-- A first entry has no earlier one to be tested against (R113). -/
theorem ldlBody_of_first {s : State} {sym : Symbol} {len : BitVec 8} (h0 : len ≠ 0) (hf : ctRead s.ct sym = none)
    (hl : s.last = none) : ldlBody sym len s = ldlInsert sym (zeros len.toNat) s := by
  rw [ldlBody, if_neg h0]
  simp [hf, hl]

/-- A later entry is tested against the latest one (R113). -/
theorem ldlBody_of_last {s : State} {sym l : Symbol} {len : BitVec 8} {prev : Bits} (h0 : len ≠ 0)
    (hf : ctRead s.ct sym = none) (hl : s.last = some l) (hr : ctRead s.ct l = some prev) :
    ldlBody sym len s = ldlAfter sym len l prev s := by
  rw [ldlBody, if_neg h0]
  simp [hf, hl, hr]

/-- Settles O18: each test of LDL's pseudocode stands behind those before it. -/
theorem ldlFaultsInOrder : Obligations.LdlFaultsInOrder := by
  intro s sym len hp hm
  rw [exec_ldl_of_load hp hm]
  refine ⟨fun h0 => if_pos h0, fun h0 hd => ?_, fun l prev h0 hf hl hr => ?_⟩
  · rw [ldlBody, if_neg h0, if_pos (Option.isSome_iff_ne_none.2 hd)]
    rfl
  · rw [ldlBody_of_last h0 hf hl hr, ldlAfter]
    refine ⟨fun horder => ?_, fun horder hover => ?_⟩
    · rcases horder with hlt | hsym
      · exact if_pos hlt
      · rw [if_neg (by omega), if_pos hsym]
        rfl
    · have hcarry : incrementOverflows prev = true := beq_iff_eq.2 hover
      rw [if_neg (by omega), if_neg (by omega), if_pos hcarry]
      rfl

/-- LDL inserts the code it makes (R113, R114). -/
theorem ldlBody_of_ldlCode {s : State} {sym : Symbol} {len : BitVec 8} {code : Bits} (h0 : len ≠ 0)
    (hf : ctRead s.ct sym = none) (hcode : ldlCode s sym len.toNat = some code) :
    ldlBody sym len s = ldlInsert sym code s := by
  rcases ldlCode_cases hcode with ⟨hl, rfl⟩ | ⟨l, prev, hl, hr, hlen, hsym, hover, rfl⟩
  · exact ldlBody_of_first h0 hf hl
  · rw [ldlBody_of_last h0 hf hl hr, ldlAfter, if_neg (by omega), if_neg (by omega), if_neg (by simp [hover])]

/-- LDL loads the code it makes where that conflicts with none (R113). -/
theorem exec_ldl_of_ldlCode {s : State} {sym : Symbol} {len : BitVec 8} {code : Bits} (hp : s.phase = .load)
    (hm : s.mode ≠ .plain) (h0 : len ≠ 0) (hf : ctRead s.ct sym = none)
    (hcode : ldlCode s sym len.toNat = some code) (hc : conflicts s.ct code = false) :
    exec (.ldl sym len) s = .next (loadCanon sym code s) := by
  rw [exec_ldl_of_load hp hm, ldlBody_of_ldlCode h0 hf hcode]
  exact if_neg (by simp [hc])

theorem ldlCode_of_first {s : State} (hl : s.last = none) (sym : Symbol) (len : Nat) :
    ldlCode s sym len = some (zeros len) := by
  simp [ldlCode, hl]

/-- The canonical step, where the entry is in order and the increment does not overflow (R113, R114). -/
theorem ldlCode_of_last {s : State} {sym l : Symbol} {len : Nat} {prev : Bits} (hl : s.last = some l)
    (hr : ctRead s.ct l = some prev) (horder : prev.length < len ∨ (len = prev.length ∧ l.toNat < sym.toNat))
    (hover : incrementOverflows prev = false) : ldlCode s sym len = some (nextCode prev len) := by
  have hlen : ¬ len < prev.length := by omega
  have hsym : ¬ (len = prev.length ∧ sym.toNat < l.toNat) := by omega
  simp [ldlCode, hl, hr, hlen, hsym, hover]

/-- Settles O16: an empty table has no code to conflict with. -/
theorem firstLdlGivesZeros : Obligations.FirstLdlGivesZeros := by
  intro s sym len hp hm hl hempty h0
  have hload : Loadable s.ct (sym, zeros len.toNat) := loadable_of_empty hempty _
  refine ⟨_, exec_ldl_of_ldlCode hp (by simp [hm]) h0 (hempty sym) (ldlCode_of_first hl sym _) hload.2,
    fun a => ?_, rfl⟩
  rw [loadCanon_ct, ctRead_ctWrite, hempty]
  rfl

end Sys2Proof.Machine
end

section
/-! PROOFS. A canonical table is prefix-free by the arithmetic of its codes, so LDL's prefix test never fails (spec
41_table_load.md R114, R116, R117). -/

namespace Sys2Proof.Machine

/-! ### Codes as numbers -/

/-- `d` is at least as long as `c` and, cut to the length of `c`, exceeds it as a number: every extension of `c` to the
length of `d` lies below `d`. -/
def CodeBelow (c d : Bits) : Prop := ∃ k, d.length = c.length + k ∧ (val c + 1) * 2 ^ k ≤ val d

theorem CodeBelow.length_le {c d : Bits} (h : CodeBelow c d) : c.length ≤ d.length := by
  obtain ⟨k, hk, _⟩ := h
  omega

theorem CodeBelow.trans {c d e : Bits} (hcd : CodeBelow c d) (hde : CodeBelow d e) : CodeBelow c e := by
  obtain ⟨k, hk, hval⟩ := hcd
  obtain ⟨m, hm, hval'⟩ := hde
  refine ⟨k + m, by omega, ?_⟩
  calc (val c + 1) * 2 ^ (k + m) = (val c + 1) * 2 ^ k * 2 ^ m := by rw [pow_add, mul_assoc]
    _ ≤ (val d + 1) * 2 ^ m := Nat.mul_le_mul_right _ (Nat.le_succ_of_le hval)
    _ ≤ val e := hval'

/-- An extension of `c` by `q` has a value below `(val(c) + 1) · 2^|q|`. -/
theorem CodeBelow.not_prefix {c d : Bits} (h : CodeBelow c d) : ¬ c <+: d := by
  rintro ⟨q, rfl⟩
  obtain ⟨k, hk, hval⟩ := h
  obtain rfl : q.length = k := by simpa using hk
  have hq := val_lt q
  rw [val_append, Nat.add_mul] at hval
  omega

/-- A longer code begins no shorter one, and of two codes of one length neither begins the other. -/
theorem CodeBelow.not_prefix_rev {c d : Bits} (h : CodeBelow c d) : ¬ d <+: c := fun hdc => by
  obtain rfl : d = c := hdc.eq_of_length_le h.length_le
  exact h.not_prefix List.prefix_rfl

/-! ### Canonical tables -/

theorem CanonFollows.codeBelow {a b : Symbol × Bits} (h : CanonFollows a b) : CodeBelow a.2 b.2 := by
  obtain ⟨hlen, hval⟩ := h
  exact ⟨b.2.length - a.2.length, by omega, hval.ge⟩

/-- Of the entries of a canonical table every earlier one lies below every later one. -/
theorem CanonOrder.pairwise_codeBelow {t : CodeTable} {last : Option Symbol} {order : List (Symbol × Bits)}
    (h : CanonOrder t last order) : order.Pairwise fun e f => CodeBelow e.2 f.2 :=
  have : IsTrans (Symbol × Bits) fun e f => CodeBelow e.2 f.2 := ⟨fun _ _ _ => CodeBelow.trans⟩
  (h.follows.imp fun _ _ => CanonFollows.codeBelow).pairwise

theorem CanonOrder.prefixFree {t : CodeTable} {last : Option Symbol} {order : List (Symbol × Bits)}
    (h : CanonOrder t last order) : PrefixFree t := by
  have hapart : order.Pairwise fun e f => ¬ e.2 <+: f.2 ∧ ¬ f.2 <+: e.2 :=
    h.pairwise_codeBelow.imp fun hb => ⟨hb.not_prefix, hb.not_prefix_rev⟩
  intro a b c d ha hb hne
  have hac : (a, c) ∈ order := h.entries.mem_iff.2 (mem_of_ctRead ha)
  have hbd : (b, d) ∈ order := h.entries.mem_iff.2 (mem_of_ctRead hb)
  have : Std.Symm fun e f : Symbol × Bits => ¬ e.2 <+: f.2 ∧ ¬ f.2 <+: e.2 := ⟨fun _ _ => And.symm⟩
  exact (hapart.forall hac hbd fun he => hne (congrArg Prod.fst he)).1

/-- The code LDL makes conflicts with none (R116): with its entry the table is canonical, so it is prefix-free. -/
theorem CanonInv.conflicts_ldlCode {s : State} (hinv : EngineInv s) (h : CanonInv s) {sym : Symbol} {len : Nat}
    {code : Bits} (hm : s.mode ≠ .plain) (hf : ctRead s.ct sym = none) (hcode : ldlCode s sym len = some code) :
    conflicts s.ct code = false := by
  obtain ⟨order, ho⟩ := h.loadCanon hinv hm hf hcode (loadCanon_mode sym code s)
  exact conflicts_eq_false_of_prefixFree_ctWrite hf ho.prefixFree

/-- Settles O20: outside FAULT there is no cause, and the one fault of LDL with this cause needs a conflict. -/
theorem ldlNeverRaisesTblPrefix : Obligations.LdlNeverRaisesTblPrefix := by
  intro s t sym len hinv hcanon hp h
  rcases exec_cases h with ⟨_, hi | ⟨hf, _⟩⟩ | ⟨hi, _⟩ | ⟨_, hx | hx⟩
  · cases hi
  · exact absurd hf hp
  · cases hi
  · have hcause : t.cause = .none := (hinv.performed hx).causeOnlyInFault.2 hx.phase_ne_fault
    simp [hcause]
  · cases hx with
    | noCode _ _ _ _ _ _ _ _ ht | trunc _ _ _ _ _ _ _ _ ht => simp [ht]
    | atOnce c _ hpre ht =>
      rw [ht, raise_cause]
      intro hc
      rcases hpre hc with ⟨_, hi⟩ | ⟨_, _, code, _, _, hm, hf, hcode, hconf⟩
      · cases hi
      · rw [hcanon.conflicts_ldlCode hinv hm hf hcode] at hconf
        cases hconf

/-- Settles O17: the code made is `Next` of the latest one, and it conflicts with none. -/
theorem ldlGivesTheNextCanonicalCode : Obligations.LdlGivesTheNextCanonicalCode := by
  intro s sym l len prev hinv hcanon hp hm hl hr hf horder hlt
  have hover : incrementOverflows prev = false := beq_false_of_ne hlt.ne
  have hcode : ldlCode s sym len.toNat = some (nextCode prev len.toNat) := ldlCode_of_last hl hr horder hover
  have hpos : 0 < len.toNat := by
    have hprev := (hinv.table.lengths l prev hr).1
    omega
  have h0 : len ≠ 0 := fun hz => by simp [hz] at hpos
  have hm' : s.mode ≠ .plain := by simp [hm]
  refine ⟨_, _, exec_ldl_of_ldlCode hp hm' h0 hf hcode (hcanon.conflicts_ldlCode hinv hm' hf hcode),
    length_ldlCode hcode, val_nextCode _ hover, ctRead_ctWrite s.ct sym _, ?_⟩
  simp [loadCanon, hm]

end Sys2Proof.Machine
end

section
/-! PROOFS. The frame of the table commands and SEAL (spec 40_control.md R103, 41_table_load.md R111 to R113). -/

namespace Sys2Proof.Machine

/-- The command `i` has led from `s` to `t` and has left the payload's fields, the sink's record, the model's own fields, the
entries of other symbols, and but for LDL the latest entry. -/
def TableFrame (i : Instr) (s t : State) : Prop :=
  t.hold = s.hold ∧ t.cur = s.cur ∧ t.nbits = s.nbits ∧ t.nsyms = s.nsyms ∧ t.out = s.out ∧ t.inputs = s.inputs ∧
  t.resets = s.resets ∧
  (∀ a, i ≠ .ldc a → (∀ len, i ≠ .ldl a len) → ctRead t.ct a = ctRead s.ct a) ∧
  ((∃ sym len, i = .ldl sym len) ∨ t.last = s.last)

/-- What writes only the phase, the cause and the fields of the table meets the frame where the table does. -/
theorem TableFrame.of_rest_eq {i : Instr} {s t : State}
    (ht : t = { s with phase := t.phase, cause := t.cause, mode := t.mode, ct := t.ct, stg := t.stg, last := t.last })
    (hct : ∀ a, i ≠ .ldc a → (∀ len, i ≠ .ldl a len) → ctRead t.ct a = ctRead s.ct a)
    (hlast : (∃ sym len, i = .ldl sym len) ∨ t.last = s.last) : TableFrame i s t := by
  refine ⟨?_, ?_, ?_, ?_, ?_, ?_, ?_, hct, hlast⟩ <;> rw [ht]

theorem Performed.tableFrame {i : Instr} {s t : State} (h : Performed i s t) (hpush : ∀ byte, i ≠ .push byte)
    (hfin : ∀ pad, i ≠ .fin pad) : TableFrame i s t := by
  cases h with
  | cbit _ _ _ _ _ ht | sealTable _ _ _ ht => subst ht; exact .of_rest_eq rfl (fun _ _ _ => rfl) (.inr rfl)
  | ldc sym hi _ _ _ _ _ ht =>
    subst ht
    exact .of_rest_eq rfl (fun a ha _ => ctRead_ctWrite_other s.ct s.stg fun he => ha (he ▸ hi)) (.inr rfl)
  | ldl sym len code hi _ _ _ _ _ _ ht =>
    subst ht
    exact .of_rest_eq rfl (fun a _ ha => ctRead_ctWrite_other s.ct code fun he => ha len (he ▸ hi))
      (.inl ⟨sym, len, hi⟩)
  | pushFirst byte hi | pushNext byte _ _ _ hi => exact absurd hi (hpush byte)
  | finEmpty hi => exact absurd hi (hfin 0)
  | finLast pad _ _ hi => exact absurd hi (hfin pad)

theorem Faulted.tableFrame {i : Instr} {s t : State} (h : Faulted i s t) (hpush : ∀ byte, i ≠ .push byte)
    (hfin : ∀ pad, i ≠ .fin pad) : TableFrame i s t := by
  cases h with
  | atOnce _ _ _ ht => subst ht; exact .of_rest_eq rfl (fun _ _ _ => rfl) (.inr rfl)
  | noCode _ _ _ hi =>
    rcases hi with ⟨byte, hi⟩ | ⟨pad, hi⟩
    · exact absurd hi (hpush byte)
    · exact absurd hi (hfin pad)
  | trunc pad _ _ hi => exact absurd hi (hfin pad)

/-- Settles O50, effect by effect: none of these commands is CLR, PUSH or FIN. -/
theorem tableCommandsFrame : Obligations.TableCommandsFrame := by
  intro s t i hi h
  obtain ⟨hclr, hpush, hfin⟩ : i ≠ .clr ∧ (∀ byte, i ≠ .push byte) ∧ ∀ pad, i ≠ .fin pad := by
    rcases hi with ⟨_, rfl⟩ | ⟨_, rfl⟩ | ⟨_, _, rfl⟩ | rfl <;> exact ⟨nofun, nofun, nofun⟩
  rcases exec_cases h with ⟨rfl, _⟩ | ⟨hc, _⟩ | ⟨_, hx | hx⟩
  · exact TableFrame.of_rest_eq rfl (fun _ _ _ => rfl) (.inr rfl)
  · exact absurd hc hclr
  · exact hx.tableFrame hpush hfin
  · exact hx.tableFrame hpush hfin

end Sys2Proof.Machine
end

section
/-! PROOFS. The walker on the trie (spec 43_tree_walk.md R160, R163): where one bit step goes, and the walk along a path
that passes no leaf. -/

namespace Sys2Proof.Machine

/-! ### Inner nodes -/

theorem isNode_of_prefix {t : CodeTable} {p q : Bits} (hq : isNode t q = true) (hp : p <+: q) : isNode t p = true := by
  rcases isNode_iff.1 hq with rfl | ⟨a, c, hc, hqc⟩
  · rwa [List.prefix_nil.1 hp]
  · exact isNode_iff.2 (.inr ⟨a, c, hc, hp.trans hqc⟩)

/-- Before the end of a code there are inner nodes only (R60). -/
theorem PrefixFree.atInner_of_prefix_code {t : CodeTable} (h : PrefixFree t) {a : Symbol} {c p : Bits}
    (ha : ctRead t a = some c) (hp : p <+: c) (hne : p ≠ c) : atInner t p = true :=
  atInner_iff.2 ⟨isNode_iff.2 (.inr ⟨a, c, ha, hp⟩), fun _ hb => hne (h.eq_of_prefix hb ha hp)⟩

/-- No code ends on the path to an inner node (R60). -/
theorem PrefixFree.not_code_prefix {t : CodeTable} (h : PrefixFree t) {a : Symbol} {c q : Bits}
    (ha : ctRead t a = some c) (hq : atInner t q = true) : ¬ c <+: q := by
  intro hcq
  obtain ⟨hnode, hleaf⟩ := atInner_iff.1 hq
  have heq : c = q := by
    rcases isNode_iff.1 hnode with rfl | ⟨b, d, hb, hqd⟩
    · exact List.prefix_nil.1 hcq
    · obtain rfl : c = d := h.eq_of_prefix ha hb (hcq.trans hqd)
      exact hcq.eq_of_length_le hqd.length_le
  exact hleaf a (heq ▸ ha)

theorem PrefixFree.atInner_of_prefix {t : CodeTable} (h : PrefixFree t) {p q : Bits} (hq : atInner t q = true)
    (hp : p <+: q) : atInner t p = true :=
  atInner_iff.2 ⟨isNode_of_prefix (atInner_iff.1 hq).1 hp, fun _ ha => h.not_code_prefix ha hq hp⟩

/-! ### One bit step -/

/-- Off the trie (R160). -/
theorem bitStep_of_no_node {s : State} {b : Bool} (h : isNode s.ct (s.cur ++ [b]) = false) :
    bitStep b s = .raised (raise .decNoCode s) := by
  simp [bitStep, h]

/-- At a leaf (R160, R162). -/
theorem bitStep_of_leaf {s : State} {b : Bool} {a : Symbol} (h : PrefixFree s.ct)
    (ha : ctRead s.ct a = some (s.cur ++ [b])) : bitStep b s = .going (walked s 1 [a] []) := by
  have hsym : symOf s.ct (s.cur ++ [b]) = some a := (symOf_eq_some_iff h).2 ha
  have hnode : isNode s.ct (s.cur ++ [b]) = true := isNode_iff.2 (.inr ⟨a, _, ha, List.prefix_refl _⟩)
  simp [bitStep, hnode, hsym, walked, emit, countBit]

/-- At an inner node (R160). -/
theorem bitStep_of_atInner {s : State} {b : Bool} (h : atInner s.ct (s.cur ++ [b]) = true) :
    bitStep b s = .going (walked s 1 [] (s.cur ++ [b])) := by
  obtain ⟨hnode, hleaf⟩ : isNode s.ct (s.cur ++ [b]) = true ∧ isLeaf s.ct (s.cur ++ [b]) = false := by
    simpa [atInner] using h
  simp [bitStep, hnode, symOf_eq_none_iff.2 hleaf, walked, countBit]

/-! ### Along a path -/

theorem feedBits_cons_of_going {b : Bool} {s u : State} (h : bitStep b s = .going u) (rest : Bits) :
    feedBits (b :: rest) s = feedBits rest u := by
  rw [feedBits_cons, h]

theorem feedBits_append_of_going {p : Bits} {s u : State} (h : feedBits p s = .going u) (q : Bits) :
    feedBits (p ++ q) s = feedBits q u := by
  rw [feedBits_append, h]

/-- On the way to an inner node nothing is emitted (R163). -/
theorem feedBits_to_inner {B : Bits} {s : State} (h : PrefixFree s.ct) (hq : atInner s.ct (s.cur ++ B) = true) :
    feedBits B s = .going (walked s B.length [] (s.cur ++ B)) := by
  induction B generalizing s with
  | nil => rw [List.append_nil]; exact congrArg Flow.going (walked_zero s).symm
  | cons b B ih =>
    have hpath : s.cur ++ b :: B = s.cur ++ [b] ++ B := by simp
    have hb : atInner s.ct (s.cur ++ [b]) = true := h.atInner_of_prefix hq (hpath ▸ List.prefix_append _ B)
    rw [hpath] at hq ⊢
    rw [feedBits_cons_of_going (bitStep_of_atInner hb), ih (s := walked s 1 [] (s.cur ++ [b])) h hq, walked_walked,
      walked_cur, List.length_cons, Nat.add_comm, List.append_nil]

/-- The last bit of a code emits its symbol, the bits before it nothing (R163). -/
theorem feedBits_to_leaf {B : Bits} {s : State} {a : Symbol} (h : PrefixFree s.ct)
    (ha : ctRead s.ct a = some (s.cur ++ B)) (hB : B ≠ []) : feedBits B s = .going (walked s B.length [a] []) := by
  obtain ⟨p, b, rfl⟩ := (List.eq_nil_or_concat' B).resolve_left hB
  have hpath : s.cur ++ (p ++ [b]) = s.cur ++ p ++ [b] := by simp
  have hinner : atInner s.ct (s.cur ++ p) = true :=
    h.atInner_of_prefix_code ha (hpath ▸ List.prefix_append _ _) (by simp)
  rw [feedBits_append_of_going (feedBits_to_inner h hinner),
    feedBits_cons_of_going (bitStep_of_leaf (s := walked s p.length [] (s.cur ++ p)) h (hpath ▸ ha)), walked_walked,
    List.length_append, List.length_singleton, List.nil_append]
  rfl

end Sys2Proof.Machine
end

section
/-! PROOFS. The parse of a bit string into code words and an inner node (spec 42_bit_unpacker.md R144, 43_tree_walk.md
R164): the walker follows it, so there is at most one. -/

namespace Sys2Proof.Machine

/-! ### Parses -/

/-- `p` is the code words of `xs`, then the inner node `r` (R144, R164). -/
def Parses (t : CodeTable) (p : Bits) (xs : List Symbol) (r : Bits) : Prop :=
  ∃ bits, spell t xs = some bits ∧ atInner t r = true ∧ p = bits ++ r

theorem parses_nil {t : CodeTable} {p r : Bits} : Parses t p [] r ↔ atInner t r = true ∧ p = r := by
  simp [Parses, spell]

theorem parses_cons {t : CodeTable} {p r : Bits} {x : Symbol} {xs : List Symbol} :
    Parses t p (x :: xs) r ↔ ∃ c q, ctRead t x = some c ∧ Parses t q xs r ∧ p = c ++ q := by
  simp only [Parses, spell_cons]
  constructor
  · rintro ⟨_, ⟨c, rest, hc, hrest, rfl⟩, hr, rfl⟩
    exact ⟨c, rest ++ r, hc, ⟨rest, hrest, hr, rfl⟩, List.append_assoc c rest r⟩
  · rintro ⟨c, _, hc, ⟨rest, hrest, hr, rfl⟩, rfl⟩
    exact ⟨c ++ rest, ⟨c, rest, hc, hrest, rfl⟩, hr, (List.append_assoc c rest r).symm⟩

/-- A string cut anywhere: the first part has a parse, and the second goes on from its inner node. -/
theorem Parses.split {t : CodeTable} (h : PrefixFree t) {p q r : Bits} {xs : List Symbol}
    (hpq : Parses t (p ++ q) xs r) :
    ∃ xs₁ xs₂ r₁, xs = xs₁ ++ xs₂ ∧ Parses t p xs₁ r₁ ∧ Parses t (r₁ ++ q) xs₂ r := by
  induction xs generalizing p with
  | nil =>
    obtain ⟨hr, heq⟩ := parses_nil.1 hpq
    have hp : atInner t p = true := h.atInner_of_prefix hr (heq ▸ List.prefix_append p q)
    exact ⟨[], [], p, rfl, parses_nil.2 ⟨hp, rfl⟩, hpq⟩
  | cons x xs ih =>
    obtain ⟨c, p', hc, hrest, heq⟩ := parses_cons.1 hpq
    by_cases hcp : c <+: p
    · obtain ⟨p₁, rfl⟩ := hcp
      obtain rfl : p₁ ++ q = p' := List.append_cancel_left ((List.append_assoc c p₁ q).symm.trans heq)
      obtain ⟨xs₁, xs₂, r₁, rfl, h₁, h₂⟩ := ih hrest
      exact ⟨x :: xs₁, xs₂, r₁, rfl, parses_cons.2 ⟨c, p₁, hc, h₁, rfl⟩, h₂⟩
    · have hpc : p <+: c := (List.prefix_or_prefix_of_prefix (List.prefix_append p q)
        (heq ▸ List.prefix_append c p')).resolve_right hcp
      have hp : atInner t p = true := h.atInner_of_prefix_code hc hpc fun he => hcp (he ▸ List.prefix_refl c)
      exact ⟨[], x :: xs, p, rfl, parses_nil.2 ⟨hp, rfl⟩, hpq⟩

/-! ### The walk along a parse -/

/-- The walker follows the parse of its place and the bits it is fed (R164). -/
theorem Parses.feedBits_eq {B : Bits} {s : State} {xs : List Symbol} {r : Bits} (h : PrefixFree s.ct)
    (hs : atInner s.ct s.cur = true) (hp : Parses s.ct (s.cur ++ B) xs r) :
    feedBits B s = .going (walked s B.length xs r) := by
  induction xs generalizing B s with
  | nil =>
    obtain ⟨hr, rfl⟩ := parses_nil.1 hp
    exact feedBits_to_inner h hr
  | cons x xs ih =>
    obtain ⟨c, q, hc, hq, heq⟩ := parses_cons.1 hp
    have hnot : ¬ c <+: s.cur := h.not_code_prefix hc hs
    have hcur : s.cur <+: c := (List.prefix_or_prefix_of_prefix (List.prefix_append s.cur B)
      (heq ▸ List.prefix_append c q)).resolve_right hnot
    obtain ⟨d, rfl⟩ := hcur
    obtain rfl : B = d ++ q := List.append_cancel_left (heq.trans (List.append_assoc s.cur d q))
    have hd : d ≠ [] := fun he => hnot (by simp [he])
    have hroot : atInner s.ct [] = true := h.atInner_of_prefix hs List.nil_prefix
    rw [feedBits_append_of_going (feedBits_to_leaf h hc hd), ih (s := walked s d.length [x] []) h hroot hq,
      walked_walked, List.length_append, List.singleton_append]

/-- Where the bit after a parse has no node, the walk faults there and what came before stands (R166, R183). -/
theorem Parses.feedBits_no_node {B rest : Bits} {b : Bool} {s : State} {xs : List Symbol} {r : Bits}
    (h : PrefixFree s.ct) (hs : atInner s.ct s.cur = true) (hp : Parses s.ct (s.cur ++ B) xs r)
    (hb : isNode s.ct (r ++ [b]) = false) :
    feedBits (B ++ b :: rest) s = .raised (raise .decNoCode (walked s B.length xs r)) := by
  rw [feedBits_append_of_going (hp.feedBits_eq h hs), feedBits_cons,
    bitStep_of_no_node (s := walked s B.length xs r) hb]

/-- The walker answers one state, so a string has one parse. -/
theorem Parses.unique {t : CodeTable} (h : ValidTable t) {p r r' : Bits} {xs ys : List Symbol}
    (hx : Parses t p xs r) (hy : Parses t p ys r') : xs = ys ∧ r = r' := by
  have walk : ∀ {zs u}, Parses t p zs u → feedBits p { State.reset with ct := t } =
      .going (walked { State.reset with ct := t } p.length zs u) := fun hz =>
    hz.feedBits_eq (s := { State.reset with ct := t }) h.prefixFree (atInner_root h.lengths)
  have heq := Flow.going.inj ((walk hx).symm.trans (walk hy))
  exact ⟨congrArg State.out heq, congrArg State.cur heq⟩

/-- Settles O32. -/
theorem parseIsUnique : Obligations.ParseIsUnique := fun _ _ _ bits _ _ _ hv hx hy hr hr' heq =>
  Parses.unique hv ⟨bits, hx, hr, rfl⟩ ⟨_, hy, hr', heq⟩

end Sys2Proof.Machine
end

section
/-! PROOFS. The payload commands PUSH and FIN (spec 42_bit_unpacker.md R141 to R143): what they release along
the parse of the bits, how they end, and their frame. -/

namespace Sys2Proof.Machine

/-! ### The frame -/

/-- What PUSH and FIN leave unchanged. -/
def PayloadFrame (s t : State) : Prop :=
  t.ct = s.ct ∧ t.mode = s.mode ∧ t.stg = s.stg ∧ t.last = s.last ∧ t.inputs = s.inputs ∧ t.resets = s.resets

theorem Performed.payloadFrame {i : Instr} {s t : State} (h : Performed i s t)
    (hi : (∃ byte, i = .push byte) ∨ ∃ pad, i = .fin pad) : PayloadFrame s t := by
  cases h with
  | cbit _ h | ldc _ h | ldl _ _ _ h | sealTable h => simp [h] at hi
  | pushFirst _ _ _ _ ht | pushNext _ _ _ _ _ _ _ _ _ ht | finEmpty _ _ _ _ ht
  | finLast _ _ _ _ _ _ _ _ ht => subst ht; exact ⟨rfl, rfl, rfl, rfl, rfl, rfl⟩

/-- No fault of any command writes these fields (R183). -/
theorem Faulted.payloadFrame {i : Instr} {s t : State} (h : Faulted i s t) : PayloadFrame s t := by
  cases h with
  | atOnce _ _ _ ht | noCode _ _ _ _ _ _ _ _ ht | trunc _ _ _ _ _ _ _ _ ht =>
    subst ht; exact ⟨rfl, rfl, rfl, rfl, rfl, rfl⟩

/-- Settles O51, effect by effect. -/
theorem payloadCommandsFrame : Obligations.PayloadCommandsFrame := by
  intro s t i hi h
  rcases exec_cases h with ⟨rfl, _⟩ | ⟨rfl, _⟩ | ⟨_, hx | hx⟩
  · exact ⟨rfl, rfl, rfl, rfl, rfl, rfl⟩
  · simp at hi
  · exact hx.payloadFrame hi
  · exact hx.payloadFrame

/-! ### Without a byte held -/

/-- In phase RUN, PUSH is performed (R100). -/
theorem exec_push_of_run {s : State} (hp : s.phase = .run) (byte : Byte) : exec (.push byte) s = pushBody byte s :=
  guarded_body (by simp [hp]) (by simp [allowed, hp])

/-- The first PUSH of a run releases nothing (R141). -/
theorem exec_push_of_not_held {s : State} (hp : s.phase = .run) (hh : s.hold = none) (byte : Byte) :
    exec (.push byte) s = .next (withHold (some byte) s) := by
  rw [exec_push_of_run hp, pushBody, hh]
  rfl

/-- In phase RUN, FIN is performed (R100). -/
theorem exec_fin_of_run {s : State} (hp : s.phase = .run) (pad : BitVec 8) : exec (.fin pad) s = finBody pad s :=
  guarded_body (by simp [hp]) (by simp [allowed, hp])

/-- The PAD test stands before any release (R143). -/
theorem exec_fin_of_pad {s : State} {pad : BitVec 8} (hp : s.phase = .run) (hpad : 7 < pad.toNat) :
    exec (.fin pad) s = .next (raise .pad s) :=
  (exec_fin_of_run hp pad).trans (if_pos hpad)

/-- Without a byte held FIN has nothing to release, and any padding is too much (R143). -/
theorem exec_fin_of_not_held {s : State} (hp : s.phase = .run) (hh : s.hold = none) (pad : BitVec 8) :
    exec (.fin pad) s = .next (if pad = 0 then finish s else raise .pad s) := by
  by_cases hpad : 7 < pad.toNat
  · have h0 : pad ≠ 0 := fun h0 => by simp [h0] at hpad
    rw [exec_fin_of_pad hp hpad, if_neg h0]
  · rw [exec_fin_of_run hp, finBody, if_neg hpad]
    simp only [hh, ne_eq, ite_not, apply_ite Host.Outcome.next]

/-- At the root the run ends well (R143). -/
theorem finish_of_root {s : State} (hc : s.cur = []) : finish s = { s with phase := .done } := if_neg (not_not.2 hc)

/-- Inside a code word it ends badly (R143). -/
theorem finish_of_not_root {s : State} (hc : s.cur ≠ []) : finish s = raise .decTrunc s := if_pos hc

/-- Settles O37: the tests of FIN's pseudocode, which stand before the release. -/
theorem finWithoutByteAndPadFaults : Obligations.FinWithoutByteAndPadFaults := by
  intro s pad hp
  refine ⟨fun h0 hh hc => ?_, fun h0 hh => ?_, fun hpad => exec_fin_of_pad hp hpad⟩
  · rw [exec_fin_of_not_held hp hh, if_pos h0, finish_of_root hc]
  · rw [exec_fin_of_not_held hp hh, if_neg h0]
    rfl

/-! ### The release of a byte held -/

/-- How PUSH ends after its release (R141): a fault of the walker loses the new byte, else it is held. -/
def pushEnd (byte : Byte) : Flow → State
  | .going u => withHold (some byte) u
  | .raised u => u

/-- PUSH with a byte held releases its eight bits (R141). -/
theorem exec_push_of_held {s : State} {h : Byte} (hp : s.phase = .run) (hh : s.hold = some h) (byte : Byte) :
    exec (.push byte) s = .next (pushEnd byte (feed h 8 s)) := by
  rw [exec_push_of_run hp, pushBody, hh]
  cases hf : feed h 8 s <;> simp only [hf, pushEnd, withHold]

/-- The bits fed go along their parse (R142, R164). -/
theorem Parses.feed_eq {s : State} {h : Byte} {n : Nat} {xs : List Symbol} {r : Bits} (hv : PrefixFree s.ct)
    (hs : atInner s.ct s.cur = true) (hn : n ≤ 8) (hp : Parses s.ct (s.cur ++ (streamBits h).take n) xs r) :
    feed h n s = .going (walked s n xs r) := by
  have hlen : ((streamBits h).take n).length = n := List.length_take_of_le (by simpa using hn)
  rw [feed, hp.feedBits_eq hv hs, hlen]

/-- The first `n` bits of a byte, seen from bit `k` (R52). -/
theorem take_streamBits_at (h : Byte) {k n : Nat} (hk : k < n) (hn : n ≤ 8) :
    ∃ rest, (streamBits h).take n = (streamBits h).take k ++ streamBit h k :: rest := by
  have hbit : ((streamBits h).take n)[k]? = some (streamBit h k) := by
    rw [List.getElem?_take_of_lt hk, getElem?_streamBits h (by omega)]
  obtain ⟨hlt, hget⟩ := List.getElem?_eq_some_iff.1 hbit
  have htake : ((streamBits h).take n).take k = (streamBits h).take k := by
    rw [List.take_take, Nat.min_eq_left hk.le]
  refine ⟨((streamBits h).take n).drop (k + 1), ?_⟩
  rw [← hget, ← List.drop_eq_getElem_cons hlt, ← htake, List.take_append_drop]

/-- Where bit `k` has no node, the bits before it stand (R166). -/
theorem Parses.feed_no_node {s : State} {h : Byte} {k n : Nat} {xs : List Symbol} {r : Bits} (hv : PrefixFree s.ct)
    (hs : atInner s.ct s.cur = true) (hk : k < n) (hn : n ≤ 8)
    (hp : Parses s.ct (s.cur ++ (streamBits h).take k) xs r) (hb : isNode s.ct (r ++ [streamBit h k]) = false) :
    feed h n s = .raised (raise .decNoCode (walked s k xs r)) := by
  obtain ⟨rest, hsplit⟩ := take_streamBits_at h hk hn
  have hlen : ((streamBits h).take k).length = k := List.length_take_of_le (by rw [length_streamBits]; omega)
  rw [feed, hsplit, hp.feedBits_no_node hv hs hb, hlen]

/-- Settles O34. -/
theorem pushFaultsWhereABitHasNoNode : Obligations.PushFaultsWhereABitHasNoNode := by
  intro s byte h xs bits r k hp hv hh hs hk hx hr heq hb
  have hparse : Parses s.ct (s.cur ++ (streamBits h).take k) xs r := ⟨bits, hx, hr, heq⟩
  rw [exec_push_of_held hp hh, hparse.feed_no_node hv.prefixFree hs hk le_rfl hb]
  rfl

/-- Settles O36. -/
theorem finFaultsWhereABitHasNoNode : Obligations.FinFaultsWhereABitHasNoNode := by
  intro s pad h xs bits r k hp hv hh hs hpad hk hx hr heq hb
  have hparse : Parses s.ct (s.cur ++ (streamBits h).take k) xs r := ⟨bits, hx, hr, heq⟩
  rw [execFin_of_held hp hh hpad, hparse.feed_no_node hv.prefixFree hs hk (Nat.sub_le 8 _) hb]
  rfl

/-! ### The bits held -/

/-- The bits that the next release can reach: those of the byte held, none where there is none. -/
def heldBits (s : State) : Bits := (s.hold.map streamBits).getD []

theorem heldBits_of_none {s : State} (h : s.hold = none) : heldBits s = [] := by simp [heldBits, h]

theorem heldBits_of_some {s : State} {h : Byte} (hh : s.hold = some h) : heldBits s = streamBits h := by
  simp [heldBits, hh]

/-- Where there is nothing to feed, the walker's place is the parse of itself. -/
theorem Parses.walked_of_no_bits {s : State} {xs : List Symbol} {r : Bits} (hv : PrefixFree s.ct)
    (hs : atInner s.ct s.cur = true) (hp : Parses s.ct (s.cur ++ []) xs r) : walked s 0 xs r = s :=
  (Flow.going.inj (hp.feedBits_eq (B := []) hv hs)).symm

/-- PUSH releases the bits held along their parse and holds its byte (R141). -/
theorem Parses.exec_push {s : State} {xs : List Symbol} {r : Bits} (hv : PrefixFree s.ct)
    (hs : atInner s.ct s.cur = true) (hp : s.phase = .run) (hx : Parses s.ct (s.cur ++ heldBits s) xs r)
    (byte : Byte) : exec (.push byte) s = .next (withHold (some byte) (walked s (heldBits s).length xs r)) := by
  cases hh : s.hold with
  | none =>
    rw [heldBits_of_none hh] at hx ⊢
    rw [exec_push_of_not_held hp hh, List.length_nil, hx.walked_of_no_bits hv hs]
  | some h =>
    have htake : (streamBits h).take 8 = streamBits h := List.take_of_length_le (by simp)
    rw [heldBits_of_some hh, ← htake] at hx
    rw [exec_push_of_held hp hh, hx.feed_eq hv hs le_rfl, heldBits_of_some hh, length_streamBits]
    rfl

/-- FIN releases what its padding leaves of the bits held along their parse, and ends (R143). -/
theorem Parses.exec_fin {s : State} {B padding : Bits} {pad : BitVec 8} {xs : List Symbol} {r : Bits}
    (hv : PrefixFree s.ct) (hs : atInner s.ct s.cur = true) (hp : s.phase = .run) (hpad : padding.length = pad.toNat)
    (hle : padding.length ≤ 7) (hheld : B ++ padding = heldBits s) (hx : Parses s.ct (s.cur ++ B) xs r) :
    exec (.fin pad) s = .next (finish (withHold none (walked s B.length xs r))) := by
  cases hh : s.hold with
  | none =>
    rw [heldBits_of_none hh] at hheld
    obtain ⟨rfl, rfl⟩ := List.append_eq_nil_iff.1 hheld
    obtain rfl : pad = 0 := BitVec.eq_of_toNat_eq hpad.symm
    have hnone : withHold none s = s := by rw [withHold, ← hh]
    rw [exec_fin_of_not_held hp hh, if_pos rfl, List.length_nil, hx.walked_of_no_bits hv hs, hnone]
  | some h =>
    rw [heldBits_of_some hh] at hheld
    have hlen : B.length + padding.length = 8 := by rw [← List.length_append, hheld, length_streamBits]
    have hB : B.length = 8 - pad.toNat := by omega
    have htake : (streamBits h).take (8 - pad.toNat) = B := by rw [← hheld, ← hB, List.take_left]
    rw [← htake] at hx
    rw [execFin_of_held hp hh (by omega), hx.feed_eq hv hs (Nat.sub_le 8 _), hB]
    rfl

/-- Settles O33. -/
theorem pushReleasesTheHeldByte : Obligations.PushReleasesTheHeldByte := by
  refine ⟨fun s byte hp hh => exec_push_of_not_held hp hh byte, ?_⟩
  intro s byte h xs bits r hp hv hh hs hx hr heq
  have hparse : Parses s.ct (s.cur ++ heldBits s) xs r := ⟨bits, hx, hr, heldBits_of_some hh ▸ heq⟩
  rw [hparse.exec_push hv.prefixFree hs hp, heldBits_of_some hh, length_streamBits]
  rfl

/-- Settles O35: at the root `finish` ends the run, inside a code word it faults. -/
theorem finDecodesTheMeaningfulBits : Obligations.FinDecodesTheMeaningfulBits := by
  intro s pad h xs bits r hp hv hh hs hpad hx hr heq
  have hparse : Parses s.ct (s.cur ++ (streamBits h).take (8 - pad.toNat)) xs r := ⟨bits, hx, hr, heq⟩
  rw [execFin_of_held hp hh hpad, hparse.feed_eq hv.prefixFree hs (Nat.sub_le 8 _)]
  show Host.Outcome.next (finish (withHold none (walked s (8 - pad.toNat) xs r))) = _
  by_cases h0 : r = []
  · rw [finish_of_root h0, if_pos h0, if_pos h0]
    rfl
  · rw [finish_of_not_root h0, if_neg h0, if_neg h0]
    rfl

end Sys2Proof.Machine
end

section
/-! PROOFS. The round trip of a packed payload (spec 42_bit_unpacker.md R144, R145). -/

namespace Sys2Proof.Machine

/-- The words of some commands, run: each is an input of the host. -/
theorem runWords_map_encode (is : List Instr) (s : State) :
    runWords (is.map encode) s =
      Host.Core.run core is.length { s with inputs := commandInputs is ++ s.inputs } := by
  rw [runWords, offerAll, List.map_map, List.length_map]
  rfl

/-- The commands of the lines `DATA bytes` and `END pad` (R87). -/
def payloadCommands (bytes : List Byte) (pad : BitVec 8) : List Instr := bytes.map .push ++ [.fin pad]

theorem length_payloadCommands (bytes : List Byte) (pad : BitVec 8) :
    (payloadCommands bytes pad).length = bytes.length + 1 := by simp [payloadCommands]

theorem wordsOf_payload (bytes : List Byte) (pad : Nat) :
    wordsOf [.data (bytes.map BitVec.toNat), .endRun pad] =
      (payloadCommands bytes (BitVec.ofNat 8 pad)).map encode := by
  simp [wordsOf, AsmLine.expand, payloadCommands]

/-- Bytes pushed and ended decode along the parse of their bits and those held before, the padding left out (R145). -/
theorem run_payload {bytes : List Byte} {s : State} {B padding : Bits} {pad : BitVec 8} {xs : List Symbol}
    {rest : List HostInput} (hi : s.inputs = commandInputs (payloadCommands bytes pad) ++ rest)
    (hv : PrefixFree s.ct) (hs : atInner s.ct s.cur = true) (hp : s.phase = .run) (hpad : padding.length = pad.toNat)
    (hle : padding.length ≤ 7) (hbits : B ++ padding = heldBits s ++ (bytes.map streamBits).flatten)
    (hx : Parses s.ct (s.cur ++ B) xs []) :
    Host.Core.run core (bytes.length + 1) s =
      .next { walked s B.length xs [] with phase := .done, hold := none, inputs := rest } := by
  induction bytes generalizing s B xs with
  | nil =>
    have hheld : B ++ padding = heldBits s := by simpa using hbits
    have hfin := hx.exec_fin (s := { s with inputs := rest }) hv hs hp hpad hle hheld
    rw [finish_of_root rfl] at hfin
    exact run_succ_of_exec hi hfin 0
  | cons b bytes ih =>
    have hheld : heldBits s <+: B := by
      refine List.prefix_of_prefix_length_le (hbits ▸ List.prefix_append _ _) (List.prefix_append B padding) ?_
      have hlen := congrArg List.length hbits
      simp only [List.map_cons, List.flatten_cons, List.length_append, length_streamBits] at hlen
      omega
    obtain ⟨B, rfl⟩ := hheld
    rw [List.append_assoc, List.append_cancel_left_eq] at hbits
    rw [← List.append_assoc] at hx
    obtain ⟨xs₁, xs₂, r, rfl, hpush, hrest⟩ := hx.split hv
    have hnext := hpush.exec_push (s := { s with inputs := commandInputs (payloadCommands bytes pad) ++ rest })
      hv hs hp b
    obtain ⟨_, _, hr, _⟩ := hpush
    have hrun := ih
      (s := withHold (some b) (walked { s with inputs := commandInputs (payloadCommands bytes pad) ++ rest }
        (heldBits s).length xs₁ r)) rfl hv hr hp hbits hrest
    refine (run_succ_of_exec hi hnext _).trans (hrun.trans ?_)
    simp [walked, withHold, BitVec.ofNat_add, BitVec.add_assoc]

/-- Settles O40: in a run that begins at the root with no byte held, the bits to parse are those packed. -/
theorem packedPayloadRoundTrips : Obligations.PackedPayloadRoundTrips := by
  intro s xs bits padding bytes hp hv hh hc hx hle hbits
  have hroot : atInner s.ct [] = true := atInner_root hv.lengths
  have hparse : Parses s.ct (s.cur ++ bits) xs [] := ⟨bits, hx, hroot, by simp [hc]⟩
  have hpad : padding.length = (BitVec.ofNat 8 padding.length).toNat := by
    rw [BitVec.toNat_ofNat, Nat.mod_eq_of_lt (by omega)]
  have hpack : bits ++ padding = heldBits s ++ (bytes.map streamBits).flatten := by
    rw [heldBits_of_none hh, List.nil_append, hbits]
  have hrun := run_payload (s := { s with
      inputs := commandInputs (payloadCommands bytes (BitVec.ofNat 8 padding.length)) ++ s.inputs })
    rfl hv.prefixFree (hc ▸ hroot) hp hpad hle hpack hparse
  rw [wordsOf_payload, runWords_map_encode, length_payloadCommands]
  rw [hh, hc] at hrun ⊢
  exact hrun

end Sys2Proof.Machine
end

section
/-! PROOFS. The tree walk (spec 43_tree_walk.md R160 to R164): one bit step, the walk along one code, and how a walk
from the root ends. -/

namespace Sys2Proof.Machine

/-- Settles O28. -/
theorem bitStepFollowsTheTrie : Obligations.BitStepFollowsTheTrie := by
  refine fun s b h => ⟨fun hoff => bitStep_of_no_node ?_, fun a ha => bitStep_of_leaf h ha,
    fun a c ha hp hne => ?_⟩
  · rw [← Bool.not_eq_true, isNode_iff]
    rintro (hnil | ⟨a, c, ha, hp⟩)
    · simp at hnil
    · exact hoff a c ha hp
  · rw [bitStep_of_atInner (h.atInner_of_prefix_code ha hp hne)]
    simp [walked]

/-- Settles O30: the bits of a code lead to its leaf, and fewer of them to an inner node. -/
theorem codeWordEmitsItsSymbol : Obligations.CodeWordEmitsItsSymbol := by
  intro s a c h hcur ha hne
  refine ⟨?_, fun k hk => ?_⟩
  · rw [feedBits_to_leaf h (by rwa [hcur]) hne, walked, ← hcur]
    rfl
  · have hproper : c.take k ≠ c := fun he => hk.not_ge ((List.take_eq_self_iff c).1 he)
    have hinner : atInner s.ct (s.cur ++ c.take k) = true := by
      rw [hcur]
      exact h.atInner_of_prefix_code ha (List.take_prefix k c) hproper
    rw [feedBits_to_inner h hinner, List.length_take_of_le hk.le, hcur]
    simp [walked]

/-- Every path is off the trie, a code, or the path to an inner node (R59, R60). -/
theorem no_node_or_code_or_atInner (t : CodeTable) (p : Bits) :
    isNode t p = false ∨ (∃ a, ctRead t a = some p) ∨ atInner t p = true := by
  cases hn : isNode t p with
  | false => exact .inl rfl
  | true =>
    by_cases hl : ∃ a, ctRead t a = some p
    · exact .inr (.inl hl)
    · exact .inr (.inr (atInner_iff.2 ⟨hn, not_exists.1 hl⟩))

/-- From an inner node, a bit string has a parse, or the part of it before some bit has one, and that bit leaves the trie
(R164). -/
theorem exists_parse_or_no_node {t : CodeTable} (hl : CodeLengthsLegal t) {p : Bits} (hp : atInner t p = true) (B : Bits) :
    (∃ xs r, Parses t (p ++ B) xs r) ∨
    (∃ q b rest xs r, B = q ++ b :: rest ∧ Parses t (p ++ q) xs r ∧ isNode t (r ++ [b]) = false) := by
  induction B generalizing p with
  | nil => exact .inl ⟨[], p, parses_nil.2 ⟨hp, List.append_nil p⟩⟩
  | cons b B ih =>
    have hpath : ∀ q, p ++ b :: q = p ++ [b] ++ q := fun q => by simp
    rcases no_node_or_code_or_atInner t (p ++ [b]) with hoff | ⟨a, ha⟩ | hinner
    · exact .inr ⟨[], b, B, [], p, rfl, parses_nil.2 ⟨hp, List.append_nil p⟩, hoff⟩
    · rcases ih (atInner_root hl) with ⟨xs, r, hx⟩ | ⟨q, b', rest, xs, r, rfl, hx, hoff⟩
      · exact .inl ⟨a :: xs, r, parses_cons.2 ⟨p ++ [b], B, ha, hx, hpath B⟩⟩
      · exact .inr ⟨b :: q, b', rest, a :: xs, r, rfl, parses_cons.2 ⟨p ++ [b], q, ha, hx, hpath q⟩, hoff⟩
    · rcases ih hinner with ⟨xs, r, hx⟩ | ⟨q, b', rest, xs, r, rfl, hx, hoff⟩
      · exact .inl ⟨xs, r, hpath B ▸ hx⟩
      · exact .inr ⟨b :: q, b', rest, xs, r, rfl, hpath q ▸ hx, hoff⟩

/-- Settles O31: the walker follows the parse of the string, or of the part before the bit that leaves the trie. -/
theorem greedyWalkEndsInOneOfThreeWays : Obligations.GreedyWalkEndsInOneOfThreeWays := by
  intro s B hv hcur
  have hs : atInner s.ct s.cur = true := hcur ▸ atInner_root hv.lengths
  rcases exists_parse_or_no_node hv.lengths hs B with ⟨xs, r, hx⟩ | ⟨q, b, rest, xs, r, rfl, hx, hoff⟩
  · have ⟨bits, hbits, hr, heq⟩ := hx
    exact .inl ⟨xs, bits, _, hx.feedBits_eq hv.prefixFree hs, hbits, by simpa [hcur] using heq, hr, rfl, rfl⟩
  · have ⟨bits, hbits, _, heq⟩ := hx
    refine .inr ⟨xs, bits, b, rest, _, hx.feedBits_no_node hv.prefixFree hs hoff, hbits, ?_, hoff, rfl, rfl, rfl⟩
    obtain rfl : q = bits ++ r := by simpa [hcur] using heq
    rfl

end Sys2Proof.Machine
end

section
/-! PROOFS. What the engine does in phase FAULT and on the way into it, and what it shows of a fault (spec
60_exceptions.md R181 to R188). -/

namespace Sys2Proof.Machine

/-! ### Phase FAULT -/

theorem illegalWord_of_phase_fault {s : State} (hp : s.phase = .fault) : illegalWord s = s := if_pos hp

/-- Settles O8: 0x01000000 is the one word read as CLR, and no other command, nor an illegal word, acts in phase FAULT. -/
theorem faultPhaseDropsEveryWordButClr : Obligations.FaultPhaseDropsEveryWordButClr := by
  intro s w rest hi hp hw
  cases hd : decode w with
  | ok i =>
    have hclr : i ≠ .clr := by
      rintro rfl
      exact hw (eq_of_decode_clr hd)
    rw [step_of_decode hi hd]
    exact exec_of_phase_fault hp hclr
  | error e =>
    rw [step_of_decode_error hi hd]
    exact congrArg Host.Outcome.next (illegalWord_of_phase_fault hp)

/-! ### The fault entry of the table commands and SEAL -/

/-- Only PUSH and FIN write anything before they fault (R183). -/
theorem Faulted.eq_raise {i : Instr} {s t : State} (h : Faulted i s t) (hpush : ∀ byte, i ≠ .push byte)
    (hfin : ∀ pad, i ≠ .fin pad) : t = raise t.cause s := by
  cases h with
  | atOnce _ _ _ ht => rw [ht, raise_cause]
  | noCode _ _ _ hi =>
    rcases hi with ⟨byte, hi⟩ | ⟨pad, hi⟩
    · exact absurd hi (hpush byte)
    · exact absurd hi (hfin pad)
  | trunc pad _ _ hi => exact absurd hi (hfin pad)

/-- Outside phase FAULT, only a fault leads into it. -/
theorem faulted_of_exec {i : Instr} {s t : State} (h : exec i s = .next t) (hs : s.phase ≠ .fault)
    (ht : t.phase = .fault) : Faulted i s t := by
  rcases exec_cases h with ⟨rfl, _⟩ | ⟨_, rfl⟩ | ⟨_, hx | hx⟩
  · exact absurd ht hs
  · cases ht
  · exact absurd ht hx.phase_ne_fault
  · exact hx

/-- Settles O22: none of these commands is PUSH or FIN. -/
theorem tableCommandFaultWritesNothing : Obligations.TableCommandFaultWritesNothing := by
  intro s t i hi hs h ht
  have hx : Faulted i s t := faulted_of_exec h hs ht
  obtain ⟨hpush, hfin⟩ : (∀ byte, i ≠ .push byte) ∧ ∀ pad, i ≠ .fin pad := by
    rcases hi with ⟨_, rfl⟩ | ⟨_, rfl⟩ | ⟨_, _, rfl⟩ | rfl <;> exact ⟨nofun, nofun⟩
  exact ⟨hx.eq_raise hpush hfin, hx.phase_cause.2⟩

/-! ### The output lines and the error classes -/

theorem lineDone_iff {s : State} : lineDone s = true ↔ s.phase = .done := beq_iff_eq

theorem lineFault_iff {s : State} : lineFault s = true ↔ s.phase = .fault := beq_iff_eq

/-- Settles O56: the engine is in one phase at a time. -/
theorem linesFollowThePhase : Obligations.LinesFollowThePhase := by
  refine fun s => ⟨lineDone_iff, lineFault_iff, fun ⟨hd, hf⟩ => ?_⟩
  cases (lineDone_iff.1 hd).symm.trans (lineFault_iff.1 hf)

/-- Settles O57, cause by cause of the table of R181. -/
theorem causesHaveTheirClasses : Obligations.CausesHaveTheirClasses := by
  intro c
  cases c <;> decide

end Sys2Proof.Machine
end

section
/-! PROOFS. The hardware reset between commands and inside one (spec 70_reset_and_hazards.md R210, R211). -/

namespace Sys2Proof.Machine

/-- What clearing leaves of a state: the record, the host's inputs and the model's counter; all else is as at reset (R41). -/
theorem clear_eq_reset (s : State) :
    clear s = { State.reset with out := s.out, inputs := s.inputs, resets := s.resets } := rfl

/-- A step takes the oldest input off the channel (R5). -/
theorem step_of_input {s : State} {e : HostInput} {rest : List HostInput} (hi : s.inputs = e :: rest) :
    step s = takeInput e { s with inputs := rest } := by
  rw [step, hi]

/-- Settles O59: CLR and the hardware reset both clear the engine, and clearing gives the reset values. -/
theorem hardwareResetActsAsClr : Obligations.HardwareResetActsAsClr := by
  intro s rest hi
  have hclear : step s = .next (clear { s with inputs := rest }) := step_of_input hi
  exact ⟨hclear, hclear.trans (congrArg Host.Outcome.next (clear_eq_reset _))⟩

theorem emissions_eq_drop {w : Word} {s t : State} (h : performWord w s = .next t) :
    emissions w s = t.out.drop s.out.length := by
  rw [emissions, h]

/-- Every word only appends to the record (R33), and its emissions are what it appends. -/
theorem out_eq_append_emissions {w : Word} {s t : State} (h : performWord w s = .next t) :
    t.out = s.out ++ emissions w s := by
  obtain ⟨full, hfull, _⟩ := performWord_appendsUpTo_eight h
  rw [emissions_eq_drop h, hfull, List.drop_left]

/-- Settles O60: the symbols that got out are the emissions of the abandoned command, cut at the free length. -/
theorem resetInsideACommandAbandonsIt : Obligations.ResetInsideACommandAbandonsIt := by
  intro s u w rest hi hu
  have hword : performWord w { s with inputs := rest } = .next u := hu
  have habandon : step s = .next (abandonWord w { s with inputs := rest }) := step_of_input hi
  exact ⟨_, emissions w { s with inputs := rest }, out_eq_append_emissions hword,
    List.take_prefix (Config.resetCut s.resets) _, habandon⟩

end Sys2Proof.Machine
end

section
/-! PROOFS. LDL in states that no run reaches (spec 10_state.md R34 item 4, 41_table_load.md R113). -/

namespace Sys2Proof.Machine

/-- Where `last` names a symbol without a code there is nothing to make the next code from (log entry 9). -/
theorem ldlBody_of_last_without_code {s : State} {sym l : Symbol} {len : BitVec 8} (h0 : len ≠ 0)
    (hf : ctRead s.ct sym = none) (hl : s.last = some l) (hr : ctRead s.ct l = none) :
    ldlBody sym len s = .fault .lastWithoutEntry := by
  rw [ldlBody, if_neg h0]
  simp [hf, hl, hr]

/-- A code that conflicts with the table is not loaded (R113). -/
theorem ldlInsert_of_conflicts {s : State} {code : Bits} (hc : conflicts s.ct code = true) (sym : Symbol) :
    ldlInsert sym code s = .next (raise .tblPrefix s) :=
  if_pos hc

/-- Settles O19: without the code of `last` LDL stops, and of a first code the one test left is that of a conflict. -/
theorem ldlOutsideTheInvariants : Obligations.LdlOutsideTheInvariants := by
  intro s sym len hp hm h0 hf
  rw [exec_ldl_of_load hp hm]
  refine ⟨fun l hl hr => ldlBody_of_last_without_code h0 hf hl hr, fun hl hc => ?_⟩
  rw [ldlBody_of_first h0 hf hl, ldlInsert_of_conflicts hc]
  rfl

end Sys2Proof.Machine
end
